-- ==== Sys2Proof/Word.lean ====
section
/-! DEFINITION. The word types of HZC: everything the spec treats as bits (00_scope.md R6). -/

namespace Sys2Proof

/-- One byte of the buffer space, or the data operand of FOLD8. -/
abbrev Byte := BitVec 8

/-- A checksum state, a count, a command word, one 4-byte lane of the register window. -/
abbrev Word32 := BitVec 32

/-- A container, an address, an aligned 8-byte word. -/
abbrev Word64 := BitVec 64

end Sys2Proof
end

