-- ==== Sys2Proof/Machine/Bits.lean ====
section
/-! DEFINITION. Bit fields, zero extension and byte order (00_scope.md R6, 20_memory.md R52, 10_state.md R23). -/

namespace Sys2Proof

/-- `v[31:0]`. -/
def lo32 (v : Word64) : Word32 := v.setWidth 32

/-- `v[63:32]`. -/
def hi32 (v : Word64) : Word32 := v.extractLsb' 32 32

/-- `zext_64(v)`. -/
def zext64 (v : Word32) : Word64 := v.setWidth 64

/-- `hi ++ lo`: a 64-bit value from its two 4-byte lanes. -/
def join64 (hi lo : Word32) : Word64 := hi ++ lo

/-- Byte `k` of a value, `v[8k+7:8k]`. -/
def byteOf (k : Nat) (v : Word64) : Byte := v.extractLsb' (8 * k) 8

/-- The little-endian value of a list of bytes, the first byte in the lowest bits (20_memory.md R52). -/
def leValue : List Byte → Word64
  | [] => 0
  | b :: bs => (leValue bs <<< 8) ||| b.setWidth 64

/-- The four bytes of a command word, in the order of their addresses (10_state.md R23: little-endian). -/
def wordBytes (w : Word32) : List Byte :=
  [w.extractLsb' 0 8, w.extractLsb' 8 8, w.extractLsb' 16 8, w.extractLsb' 24 8]

end Sys2Proof
end

