-- ==== Sys2Proof/Machine/Fold.lean ====
section
/-! DEFINITION. The CRC-32C folds (41_byte_accumulator.md R110, R111; 42_word_accumulator.md R130, R132). -/

namespace Sys2Proof.Machine

/-- `POLY`, CRC-32C in bit-reflected form (00_scope.md R5; the spec takes it from general knowledge, G1; PRESUMED, log entry 12). -/
def crcPoly : Word32 := 0x82F63B78

/-- One of the eight bit steps of ByteFold (41_byte_accumulator.md R110). -/
def crcBit (t : Word32) : Word32 :=
  if t.getLsbD 0 then (t >>> 1) ^^^ crcPoly else t >>> 1

/-- `n` bit steps. -/
def crcBits : Nat → Word32 → Word32
  | 0, t => t
  | n + 1, t => crcBits n (crcBit t)

/-- `ByteFold(s, b)` (41_byte_accumulator.md R110). -/
def byteFold (s : Word32) (b : Byte) : Word32 := crcBits 8 (s ^^^ b.setWidth 32)

/-- Fold a list of bytes, first to last. -/
def bytesFold (s : Word32) (bs : List Byte) : Word32 := bs.foldl byteFold s

/-- The eight bytes of a word, `w[7:0]` first (42_word_accumulator.md R130). -/
def bytesOfWord (w : Word64) : List Byte := (List.range 8).map fun k => byteOf k w

/-- `WordFold(s, w)` (42_word_accumulator.md R130). -/
def wordFold (s : Word32) (w : Word64) : Word32 := bytesFold s (bytesOfWord w)

/-- `WordStep(c, w)`: the upper half of the container is ignored on the way in and zero on the way out
(42_word_accumulator.md R132). -/
def wordStep (c w : Word64) : Word64 := zext64 (wordFold (lo32 c) w)

end Sys2Proof.Machine
end

