-- ==== Sys2Proof/Config.lean ====
section
/-! DEFINITION. What the platform fixes (00_scope.md R5, the OPEN parameters) and the free values.

The parameters are data of the machine's state (`Machine.State.platform`), so a statement about every state
is a statement about every value of them; the constants here, which have no body, are the values the state
holds at power-on (DESIGN CHOICE, log entry 1). -/

namespace Sys2Proof

/-- A run of readable byte addresses, `base` to `base + size - 1`. -/
structure Region where
  base : Nat
  size : Nat
  deriving DecidableEq, Repr, Inhabited

/-- The OPEN parameters of one platform (00_scope.md R5; 70_reset_and_hazards.md R204 (1): they do not change). -/
structure Platform where
  /-- `FEAT_WORD`, the feature-flag word of "function 1" (40_probe.md R101). -/
  featWord : Word32
  /-- `Readable`, as the list of the readable runs of addresses (20_memory.md R51; DESIGN CHOICE, log entry 2). -/
  readable : List Region
  /-- `REG_BASE` of each instance, in the order of the instances (10_state.md R22, 60_exceptions.md R194). -/
  regBase : List Word64
  deriving DecidableEq, Repr, Inhabited

/-- `FEAT_WORD` (OPEN). -/
opaque Config.featWord : Word32

/-- `Readable` (OPEN). -/
opaque Config.readable : List Region

/-- `REG_BASE` of the instance with the given number (OPEN). -/
opaque Config.regBase : Nat → Word64

/-- `N_UNITS - 1` (OPEN): there is at least one instance. -/
opaque Config.extraUnits : Nat

/-- `N_UNITS` (00_scope.md R5: OPEN, at least 1). -/
def Config.nUnits : Nat := Config.extraUnits + 1

/-- FREE VALUE. Byte `k` of the read event that will have number `n` in the history, where the host stored to
that byte while the command was in progress (60_exceptions.md R188: some mixture of old and new bytes; DESIGN CHOICE, log entry 5). -/
opaque Config.freeByte : (n k : Nat) → Byte

/-- The platform at power-on. -/
def Config.platform : Platform where
  featWord := Config.featWord
  readable := Config.readable
  regBase := (List.range Config.nUnits).map Config.regBase

end Sys2Proof
end

