-- ==== Sys2Proof/Machine/Bus.lean ====
section
/-! DEFINITION. What the outside world does to HZC: the record of a window access (30_encoding.md R76) and the
events of a schedule. Types only; what they do stands in Window.lean and Events.lean. -/

namespace Sys2Proof.Machine

inductive Dir where
  | read
  | write
  deriving DecidableEq, Repr, Inhabited

/-- One host access to a register window, `(dir, offset, size, value)` (30_encoding.md R76). The window has 256
bytes, so an offset is 8 bits (10_state.md R22). `value` is what a write carries; a read returns its value in
`State.rdata`. Any size may be written down: what HZC does with it is 10_state.md R23's. -/
structure Access where
  dir : Dir
  offset : BitVec 8
  size : Nat
  value : Word64
  deriving DecidableEq, Repr, Inhabited

/-- One event of a schedule (10_state.md R36, 60_exceptions.md R181: accesses and sequencer steps are serialised,
one at a time in any order). `k` is the number of an instance. -/
inductive Event where
  /-- A host access to the window of instance `k` (30_encoding.md R76). -/
  | access (k : Nat) (a : Access)
  /-- A host access by bus address (10_state.md R22: the window of an instance begins at its `REG_BASE`). -/
  | bus (address : Word64) (dir : Dir) (size : Nat) (value : Word64)
  /-- A host store of one byte to the buffer space (20_memory.md R60, R62). -/
  | store (address : Word64) (b : Byte)
  /-- The reset input of instance `k` (70_reset_and_hazards.md R200). -/
  | resetInput (k : Nat)
  /-- A step of the sequencer of instance `k` (10_state.md R36). -/
  | tick (k : Nat)
  /-- `wait`: the host reads STATUS of instance `k` until BUSY is 0 (30_encoding.md R77). -/
  | wait (k : Nat)
  /-- The seed write of `chain`: the host writes the low 32 bits of the last window read of the whole machine to SEED of
  instance `k` (30_encoding.md R78; DESIGN CHOICE, log entry 17). -/
  | chainSeed (k : Nat)
  deriving DecidableEq, Repr, Inhabited

end Sys2Proof.Machine
end

