-- ==== Sys2Proof/Machine/State.lean ====
section
/-! DEFINITION. The state of the machine, its reset, and the reasons a step can stop.

The spec's registers of one instance are `HzcUnit` (10_state.md R21 to R36); `State` holds the instances, the
platform's parameters, the buffer space, the recorded history and the events still to come. -/

namespace Sys2Proof.Machine

/-- Why a step stops. None of these is a fault of HZC: HZC's own faults are codes in STATUS.ERR and give a next
state (60_exceptions.md R183). -/
inductive Fault where
  /-- Raised by every event that names an instance the platform does not have (60_exceptions.md R194). SAFE
  (DESIGN CHOICE, log entry 9). -/
  | noSuchUnit
  /-- Raised by a phase step whose bytes are not all `Readable`. SAFE, and in no state that meets the invariant:
  every byte of an accepted command was found readable at issue (60_exceptions.md R187; DEDUCED, log entry 11). -/
  | unreadable
  /-- Raised by a completion whose L.OP is no command code. SAFE, and in no state that meets the invariant (DEDUCED, log entry 11). -/
  | noLatchedCommand
  deriving DecidableEq, Repr

/-- Why an event has no meaning. -/
inductive Refusal where
  /-- An instruction without a meaning. No arm of `exec` answers it in this model. SAFE. -/
  | notModelled (mnemonic : String)
  /-- Raised by a bus access that no instance's window holds: it does not reach HZC, and the spec fixes no other
  device (60_exceptions.md R193). SAFE (DESIGN CHOICE, log entry 10). -/
  | outsideWindows
  deriving DecidableEq, Repr

/-- The codes of STATUS.ERR (60_exceptions.md R180). Codes 6 to 15 are never produced. -/
inductive ErrCode where
  | none
  | badop
  | unsupported
  | align
  | range
  | busy
  deriving DecidableEq, Repr, Inhabited

/-- The kind of a phase (10_state.md R35). -/
inductive PhaseKind where
  | byte
  | word
  deriving DecidableEq, Repr, Inhabited

/-- A phase record of Q (10_state.md R35): the address of the next unit and how many units are left. -/
structure Phase where
  kind : PhaseKind
  cursor : Word64
  remaining : Nat
  deriving DecidableEq, Repr, Inhabited

/-- One instance: its window registers (10_state.md R22), hidden registers (R33 to R35), and `raced`, the model's
own record of the addresses the host stored to in the range of the command in progress (60_exceptions.md R188). -/
structure HzcUnit where
  busy : Bool
  done : Bool
  err : ErrCode
  seed : Word64
  addr : Word64
  len : Word32
  data : Word64
  result : Word64
  plead : Word32
  pwords : Word32
  ptrail : Word32
  acc : Word64
  lOp : BitVec 4
  lSeed : Word64
  lAddr : Word64
  lLen : Word32
  lData : Word64
  q : List Phase
  raced : List Word64
  deriving DecidableEq, Repr, Inhabited

/-- An instance after reset (70_reset_and_hazards.md R201, R202). -/
def HzcUnit.reset : HzcUnit where
  busy := false
  done := false
  err := .none
  seed := 0
  addr := 0
  len := 0
  data := 0
  result := 0
  plead := 0
  pwords := 0
  ptrail := 0
  acc := 0
  lOp := 0
  lSeed := 0
  lAddr := 0
  lLen := 0
  lData := 0
  q := []
  raced := []

/-- One read event: which instance read, where, how many bytes, and their little-endian value (20_memory.md R59). -/
structure ReadEvent where
  unit : Nat
  address : Word64
  width : Nat
  value : Word64
  deriving DecidableEq, Repr, Inhabited

/-- A read range the host must leave alone (20_memory.md R62): the bytes `base` to `base + size - 1`, from the accepted
CMD write to instance `unit` until the host reads BUSY = 0 there (70_reset_and_hazards.md R208). -/
structure Duty where
  unit : Nat
  base : Word64
  size : Nat
  deriving DecidableEq, Repr, Inhabited

/-- The machine. `units` are the instances, in the order of `platform.regBase`; `mem` is the buffer space
(20_memory.md R50); `history` holds the read events, the latest first (R59); `hostRace` is the recorded
model-level fault (60_exceptions.md R188); `duty` holds the read ranges the host must not store to, the latest first
(20_memory.md R62); `rdata` is the value the last window read of any instance by any host returned
(30_encoding.md R76; DESIGN CHOICE, log entry 17); `sched` holds the events still to come, the next first; `sel` is the instance the access in hand
addresses. -/
structure State where
  platform : Platform
  units : List HzcUnit
  mem : List Host.Cell
  history : List ReadEvent
  hostRace : Bool
  duty : List Duty
  rdata : Word64
  sched : List Event
  sel : Nat
  deriving DecidableEq, Repr, Inhabited

/-- The machine right after power-on reset: every instance reset (70_reset_and_hazards.md R202), nothing in
memory, nothing recorded and nothing scheduled (DESIGN CHOICE, log entries 1, 4, 7, 8). -/
def State.reset : State where
  platform := Config.platform
  units := List.replicate Config.nUnits HzcUnit.reset
  mem := []
  history := []
  hostRace := false
  duty := []
  rdata := 0
  sched := []
  sel := 0

end Sys2Proof.Machine
end

