-- ==== Sys2Proof/Machine/Flags.lean ====
section
/-! DEFINITION. STATUS and the capability: HZC's only flags (10_state.md R25, R40; 40_probe.md R101). -/

namespace Sys2Proof.Machine

/-- `FEAT_BIT` (00_scope.md R5; the spec takes the number from general knowledge, G4; PRESUMED, log entry 12). -/
def featBit : Nat := 20

/-- `CAP = FEAT_WORD[FEAT_BIT]` (40_probe.md R101). -/
def capOf (p : Platform) : Bool := p.featWord.getLsbD featBit

/-- The number of an error in STATUS.ERR (60_exceptions.md R180). -/
def errNumber : ErrCode → BitVec 4
  | .none => 0
  | .badop => 1
  | .unsupported => 2
  | .align => 3
  | .range => 4
  | .busy => 5

/-- STATUS as a host reads it (10_state.md R25): FEAT in bit 8, ERR in 7:4, DONE in 1, BUSY in 0, the rest zero. -/
def HzcUnit.status (p : Platform) (u : HzcUnit) : Word32 :=
  (0 : BitVec 23) ++ BitVec.ofBool (capOf p) ++ errNumber u.err ++ (0 : BitVec 2) ++ BitVec.ofBool u.done
    ++ BitVec.ofBool u.busy

end Sys2Proof.Machine
end

