-- ==== Sys2Proof/Syntax.lean ====
section
/-! DEFINITION. The commands of HZC: one constructor per row of spec/opcode_table.json (30_encoding.md R72).
No command has an operand field; every operand comes from a register (30_encoding.md R70, R71). -/

namespace Sys2Proof

inductive Instr where
  /-- Report the capability (40_probe.md R100). -/
  | probe
  /-- One byte fold of register operands (41_byte_accumulator.md R113). -/
  | fold8
  /-- One word fold of register operands (42_word_accumulator.md R133). -/
  | fold64
  /-- The byte-granularity accumulator (41_byte_accumulator.md R114). -/
  | csumb
  /-- The word-granularity accumulator (42_word_accumulator.md R134). -/
  | csumw
  /-- The alignment-splitting driver (43_driver.md R156). -/
  | csum
  /-- The partitioner alone (43_driver.md R155). -/
  | part
  deriving DecidableEq, Repr, Inhabited

/-- The commands, in the order of their codes. -/
def Instr.all : List Instr := [.probe, .fold8, .fold64, .csumb, .csumw, .csum, .part]

end Sys2Proof
end

