-- ==== Sys2Proof/WellFormed.lean ====
section
/-! DEFINITION. Which terms stand for something the spec lets a host write. -/

namespace Sys2Proof

/-- Every command is well formed: a command has no operand field (30_encoding.md R70, R71). -/
def Instr.wellFormed : Instr → Bool
  | .probe | .fold8 | .fold64 | .csumb | .csumw | .csum | .part => true

namespace Machine

/-- A window access as 10_state.md R23 describes one: 4 or 8 bytes, at an offset that is a multiple of its size,
with a value that fits its size. The machine defines what every other access does as well (nothing). -/
def Access.wellFormed (a : Access) : Bool :=
  (a.size == 4 || a.size == 8) && a.offset.toNat % a.size == 0 && decide (a.value.toNat < 2 ^ (8 * a.size))

end Machine
end Sys2Proof
end

