-- ==== Sys2Proof/Decode.lean ====
section
/-! DEFINITION. The decoder of command words, total, and the encoder (30_encoding.md R70 to R75). -/

namespace Sys2Proof

/-- Why a word is no command (30_encoding.md R73). Each of them makes HZC fault with BADOP. -/
inductive Reject where
  /-- `CMD[31:4]` is not zero. -/
  | reservedBits (rsv : BitVec 28)
  /-- `OP` is 0x0 or 0x8 to 0xF. -/
  | reservedOp (op : BitVec 4)
  /-- There are fewer than the four bytes of a command word. -/
  | truncated
  deriving DecidableEq, Repr

/-- `OP`, bits 3:0 of a command word. -/
def opField (w : Word32) : BitVec 4 := w.extractLsb' 0 4

/-- The reserved field, bits 31:4 of a command word. -/
def rsvField (w : Word32) : BitVec 28 := w.extractLsb' 4 28

/-- The command of a code (30_encoding.md R72). -/
def opInstr (op : BitVec 4) : Option Instr :=
  match op with
  | 0x1#4 => some .probe
  | 0x2#4 => some .fold8
  | 0x3#4 => some .fold64
  | 0x4#4 => some .csumb
  | 0x5#4 => some .csumw
  | 0x6#4 => some .csum
  | 0x7#4 => some .part
  | _ => none

/-- Decode a command word (30_encoding.md R72, R73). -/
def decodeWord (w : Word32) : Except Reject Instr :=
  if rsvField w = 0 then
    match opInstr (opField w) with
    | some i => .ok i
    | none => .error (.reservedOp (opField w))
  else .error (.reservedBits (rsvField w))

/-- Decode the first command word of a list of bytes, and give the bytes after it. -/
def decode : List Byte → Except Reject (Instr × List Byte)
  | b0 :: b1 :: b2 :: b3 :: rest =>
    match decodeWord (b3 ++ b2 ++ b1 ++ b0) with
    | .ok i => .ok (i, rest)
    | .error e => .error e
  | _ => .error .truncated

/-- The code of a command (30_encoding.md R72). -/
def opCode : Instr → BitVec 4
  | .probe => 0x1
  | .fold8 => 0x2
  | .fold64 => 0x3
  | .csumb => 0x4
  | .csumw => 0x5
  | .csum => 0x6
  | .part => 0x7

/-- The command word of a command: the reserved field zero, the code in bits 3:0 (30_encoding.md R70, R72). -/
def encodeWord (i : Instr) : Word32 := (0 : BitVec 28) ++ opCode i

/-- The bytes of a command word, as they lie in the window (10_state.md R23). -/
def encode (i : Instr) : List Byte := wordBytes (encodeWord i)

/-- The instruction the decoder reads from the word `w` of `nbits` bits. A command word has 32 bits: no longer
form exists (30_encoding.md R70), so a value that needs more is no command. -/
def decodeTableWord (nbits w : Nat) : Option Instr :=
  if w % 2 ^ nbits < 2 ^ 32 then
    match decode (wordBytes (BitVec.ofNat 32 (w % 2 ^ nbits))) with
    | .ok (i, _) => some i
    | .error _ => none
  else none

end Sys2Proof
end

