-- ==== Sys2Proof/Machine/Operands.lean ====
section
/-! DEFINITION. Operand assembly from the latches (30_encoding.md R71), and the read range of a latched command
(20_memory.md R51, R55). -/

namespace Sys2Proof.Machine

/-- `L.SEED[31:0]`: the seed of FOLD8, FOLD64, CSUMB and CSUM (10_state.md R27). -/
def HzcUnit.seed32 (u : HzcUnit) : Word32 := lo32 u.lSeed

/-- `L.DATA[7:0]`: the byte of FOLD8 (10_state.md R30). -/
def HzcUnit.data8 (u : HzcUnit) : Byte := u.lData.setWidth 8

/-- `L.LEN`: bytes of CSUMB, CSUM and PART, words of CSUMW (10_state.md R29). -/
def HzcUnit.count (u : HzcUnit) : Nat := u.lLen.toNat

/-- The number of bytes the phases of a command read, from its count operand (20_memory.md R51, R55): for CSUMW
8 bytes a word, computed exactly. -/
def extentOf (i : Instr) (n : Nat) : Nat :=
  match i with
  | .csumb | .csum => n
  | .csumw => 8 * n
  | .probe | .fold8 | .fold64 | .part => 0

/-- The byte extent of the command latched in L.OP and L.LEN. -/
def HzcUnit.extent (u : HzcUnit) : Nat :=
  match opInstr u.lOp with
  | some i => extentOf i u.count
  | none => 0

/-- Whether an address lies in the latched read range of a command in progress (20_memory.md R62). -/
def HzcUnit.inReadRange (u : HzcUnit) (a : Word64) : Bool :=
  u.busy && decide (u.lAddr.toNat ≤ a.toNat) && decide (a.toNat < u.lAddr.toNat + u.extent)

end Sys2Proof.Machine
end

