-- ==== Sys2Proof/Machine/Ops.lean ====
section
/-! DEFINITION. The shared operations: the buffer space, range admission, selecting an instance, fault entry and
its exit by reset, and the CMD write that every command's meaning is built from. -/

namespace Sys2Proof.Machine

/-! ## The buffer space (20_memory.md R50) -/

/-- What an address reads as that nothing has written (DESIGN CHOICE, log entry 7). -/
def Memory.unlisted : Byte := 0

/-- The byte at an address. -/
def Memory.read : List Host.Cell → Nat → Byte
  | [], _ => Memory.unlisted
  | (k, v) :: t, a => if k = a then v else Memory.read t a

/-- Store a byte, keeping the canonical form. -/
def Memory.write : List Host.Cell → Nat → Byte → List Host.Cell
  | [], a, b => if b = Memory.unlisted then [] else [(a, b)]
  | (k, v) :: t, a, b =>
    if a < k then if b = Memory.unlisted then (k, v) :: t else (a, b) :: (k, v) :: t
    else if a = k then if b = Memory.unlisted then t else (a, b) :: t
    else (k, v) :: Memory.write t a b

/-- The canonical form from address `lo` on: addresses rising, below 2^64, no entry that an unlisted address
reads as. -/
def Memory.wfFrom : Nat → List Host.Cell → Bool
  | _, [] => true
  | lo, (k, v) :: t => decide (lo ≤ k) && decide (k < 2 ^ 64) && decide (v ≠ Memory.unlisted) && Memory.wfFrom (k + 1) t

/-- The canonical form. -/
def Memory.wf (m : List Host.Cell) : Bool := Memory.wfFrom 0 m

/-! ## Readable memory (20_memory.md R51) -/

/-- Whether a region holds an address. -/
def regionHolds (r : Region) (x : Nat) : Bool := decide (r.base ≤ x) && decide (x < r.base + r.size)

/-- `Readable(a)` (00_scope.md R5). -/
def readableAt (p : Platform) (a : Word64) : Bool := p.readable.any fun r => regionHolds r a.toNat

/-- Whether the regions hold every address from `lo` up to, not including, `hi`: each region leaves the part
below it and the part above it to the regions after it. -/
def covered : List Region → Nat → Nat → Bool
  | [], lo, hi => decide (hi ≤ lo)
  | r :: rs, lo, hi =>
    decide (hi ≤ lo) || (covered rs lo (min hi r.base) && covered rs (max lo (r.base + r.size)) hi)

/-- `InRange(a, n)` (20_memory.md R51): the sum is exact. -/
def inRange (p : Platform) (a : Word64) (n : Nat) : Bool :=
  decide (a.toNat + n ≤ 2 ^ 64) && covered p.readable a.toNat (a.toNat + n)

/-! ## Instances -/

/-- The outcome of a step of this machine. -/
abbrev Result := Host.Outcome State Fault Refusal

/-- Put an instance back under its number. -/
def State.setUnit (s : State) (k : Nat) (u : HzcUnit) : State := { s with units := s.units.set k u }

/-- Change the instance with number `k` and nothing else; it must exist. -/
def State.onUnit (s : State) (k : Nat) (f : HzcUnit → HzcUnit) : Result :=
  match s.units[k]? with
  | some u => .next (s.setUnit k (f u))
  | none => .fault .noSuchUnit

/-! ## Fault entry, and its exit -/

/-- FAULT ENTRY, `raise E` (60_exceptions.md R183): ERR takes the code, BUSY and DONE fall, Q is emptied, and
nothing else changes. -/
def HzcUnit.raise (u : HzcUnit) (e : ErrCode) : HzcUnit :=
  { u with err := e, busy := false, done := false, q := [] }

/-- THE EXIT from a fault is a reset and nothing else (60_exceptions.md R185, 70_reset_and_hazards.md R201): every
register takes its reset value. The platform, the buffer space and the history are no part of an instance. -/
def HzcUnit.softReset (_ : HzcUnit) : HzcUnit := HzcUnit.reset

/-- Reset of instance `k`, by its reset input or by CTRL.SRST (70_reset_and_hazards.md R200, R201). -/
def State.resetUnit (s : State) (k : Nat) : Result := s.onUnit k HzcUnit.softReset

/-! ## Issue and completion -/

/-- ISSUE (10_state.md R36): the latches take the command code and the operand registers, BUSY rises, DONE falls,
and ACC and Q start as the command's rule gives. No store has raced with the new command yet. -/
def HzcUnit.issue (u : HzcUnit) (op : BitVec 4) (acc : Word64) (q : List Phase) : HzcUnit :=
  { u with
    lOp := op, lSeed := u.seed, lAddr := u.addr, lLen := u.len, lData := u.data
    busy := true, done := false, acc := acc, q := q, raced := [] }

/-- The STATUS writes of a completion (10_state.md R36). -/
def HzcUnit.finish (u : HzcUnit) : HzcUnit := { u with busy := false, done := true }

/-- A completion that writes RESULT alone. -/
def HzcUnit.completeResult (u : HzcUnit) (r : Word64) : HzcUnit := { u with result := r }.finish

/-! ## The CMD write (60_exceptions.md R181) -/

/-- A CMD write at one instance, in the order of 60_exceptions.md R181: ignored while ERR is set (R184), aborting
with BUSY while a command is in progress (R186), refused with the code `check` gives, else accepted. -/
def HzcUnit.cmdWrite (p : Platform) (check : Platform → HzcUnit → Option ErrCode) (start : HzcUnit → HzcUnit)
    (u : HzcUnit) : HzcUnit :=
  if u.err ≠ .none then u
  else if u.busy then u.raise .busy
  else
    match check p u with
    | some e => u.raise e
    | none => start u

/-- The host owes the `n` bytes from `a` on to instance `k` (20_memory.md R62). A range of no bytes is none. -/
def State.addDuty (s : State) (k : Nat) (a : Word64) (n : Nat) : State :=
  if n = 0 then s else { s with duty := ⟨k, a, n⟩ :: s.duty }

/-- Put instance `k` back after a CMD write that made `v` of `u`. BUSY rises exactly where the command is accepted
(10_state.md R36), and from there on the host owes its read range. -/
def State.afterCmd (s : State) (k : Nat) (u v : HzcUnit) : State :=
  if u.busy = false ∧ v.busy = true then (s.setUnit k v).addDuty k v.lAddr v.extent else s.setUnit k v

/-- The CMD write at the selected instance. -/
def State.command (s : State) (check : Platform → HzcUnit → Option ErrCode) (start : HzcUnit → HzcUnit) : Result :=
  match s.units[s.sel]? with
  | some u => .next (s.afterCmd s.sel u (u.cmdWrite s.platform check start))
  | none => .fault .noSuchUnit

/-- No check after decoding: PROBE and PART (60_exceptions.md R181). -/
def noCheck (_ : Platform) (_ : HzcUnit) : Option ErrCode := none

/-- The capability gate of the CRC commands (60_exceptions.md R182). -/
def capCheck (p : Platform) (_ : HzcUnit) : Option ErrCode := if capOf p then none else some .unsupported

/-- The capability, then the byte range `[ADDR, ADDR + LEN)`: CSUMB and CSUM (60_exceptions.md R181). -/
def byteRangeCheck (p : Platform) (u : HzcUnit) : Option ErrCode :=
  if capOf p = false then some .unsupported
  else if inRange p u.addr u.len.toNat then none
  else some .range

/-- The capability, then the alignment of ADDR, then the range of `8 * LEN` bytes: CSUMW (60_exceptions.md R181). -/
def wordRangeCheck (p : Platform) (u : HzcUnit) : Option ErrCode :=
  if capOf p = false then some .unsupported
  else if u.addr.toNat % 8 ≠ 0 then some .align
  else if inRange p u.addr (8 * u.len.toNat) then none
  else some .range

/-- A CMD word that is no command (60_exceptions.md R181): BADOP, unless the write is ignored or aborts. -/
def badopCheck (_ : Platform) (_ : HzcUnit) : Option ErrCode := some .badop

/-- A CMD write of an illegal word (30_encoding.md R73). -/
def State.illegalCommand (s : State) : Result := s.command badopCheck id

/-! ## Reads of the sequencer (20_memory.md R52, R59) -/

/-- One byte a read of instance `u` returns: the byte in memory, or a free value where the host stored to it while
the command was in progress (60_exceptions.md R188; DESIGN CHOICE, log entry 5). `k` is the byte's place in the read. -/
def State.fetchByte (s : State) (u : HzcUnit) (k : Nat) (a : Word64) : Byte :=
  if u.raced.contains a then Config.freeByte s.history.length k else Memory.read s.mem a.toNat

/-- The addresses of a read of `n` bytes, rising. -/
def readAddresses (a : Word64) (n : Nat) : List Word64 := (List.range n).map fun k => a + BitVec.ofNat 64 k

/-- The value of `MemRead(a, n)` (20_memory.md R52). -/
def State.readValue (s : State) (u : HzcUnit) (a : Word64) (n : Nat) : Word64 :=
  leValue ((List.range n).map fun k => s.fetchByte u k (a + BitVec.ofNat 64 k))

/-- Record a read event (20_memory.md R59). -/
def State.record (s : State) (e : ReadEvent) : State := { s with history := e :: s.history }

/-! ## Host stores (20_memory.md R60, R62) -/

/-- Whether a range the host owes holds an address. -/
def Duty.holds (d : Duty) (a : Word64) : Bool :=
  decide (d.base.toNat ≤ a.toNat) && decide (a.toNat < d.base.toNat + d.size)

/-- The host has read BUSY = 0 at instance `k`: it owes that instance nothing more (20_memory.md R62). -/
def State.endDuty (s : State) (k : Nat) : State := { s with duty := s.duty.filter fun d => d.unit != k }

/-- Note at one instance that the host stored to an address of its range while its command is in progress, so that
the bytes the command still reads there are open (60_exceptions.md R188). -/
def HzcUnit.noteStore (a : Word64) (u : HzcUnit) : HzcUnit :=
  if u.inReadRange a then { u with raced := a :: u.raced } else u

/-- A host store of one byte. It is visible to every later read (20_memory.md R60; DEDUCED, log entry 15). A store
into a range the host owes is recorded as HostRace for the whole run (60_exceptions.md R188, 70_reset_and_hazards.md
R208); that no reset clears the record is a DESIGN CHOICE (log entry 5). -/
def State.hostStore (s : State) (a : Word64) (b : Byte) : State :=
  { s with
    mem := Memory.write s.mem a.toNat b
    units := s.units.map (HzcUnit.noteStore a)
    hostRace := s.hostRace || s.duty.any fun d => d.holds a }

end Sys2Proof.Machine
end

