-- ==== Sys2Proof/Machine/ByteAcc.lean ====
section
/-! DEFINITION. The byte-granularity accumulator: FOLD8 and CSUMB (41_byte_accumulator.md R112 to R114). -/

namespace Sys2Proof.Machine

/-- `ByteRun(s, a, n)`: the fold of `n` bytes of a memory, from address `a` upward (41_byte_accumulator.md R112). -/
def byteRun (m : List Host.Cell) (s : Word32) (a : Word64) : Nat → Word32
  | 0 => s
  | n + 1 => byteRun m (byteFold s (Memory.read m a.toNat)) (a + 1) n

/-- Issue of FOLD8: ACC from the low half of the latched seed, as every command initialises it (10_state.md R39, R33;
DEDUCED, log entry 6), and no phase. -/
def startFold8 (u : HzcUnit) : HzcUnit := u.issue (opCode .fold8) (zext64 (lo32 u.seed)) []

/-- FOLD8: the CMD write of its word (41_byte_accumulator.md R113). -/
def execFold8 (s : State) : Result := s.command capCheck startFold8

/-- Completion of FOLD8: `RESULT <- zext_64(ByteFold(L.SEED[31:0], L.DATA[7:0]))`. -/
def completeFold8 (_ : Platform) (u : HzcUnit) : HzcUnit :=
  u.completeResult (zext64 (byteFold u.seed32 u.data8))

/-- Issue of CSUMB: `ACC <- zext_64(L.SEED[31:0])`, one BYTE phase over the buffer. -/
def startCsumb (u : HzcUnit) : HzcUnit :=
  u.issue (opCode .csumb) (zext64 (lo32 u.seed)) [⟨.byte, u.addr, u.len.toNat⟩]

/-- CSUMB: the CMD write of its word (41_byte_accumulator.md R114). -/
def execCsumb (s : State) : Result := s.command byteRangeCheck startCsumb

/-- Completion of CSUMB: `RESULT <- zext_64(ACC[31:0])`. -/
def completeCsumb (_ : Platform) (u : HzcUnit) : HzcUnit := u.completeResult (zext64 (lo32 u.acc))

end Sys2Proof.Machine
end

