-- ==== Sys2Proof/Machine/Partition.lean ====
section
/-! DEFINITION. The partitioner (43_driver.md R150 to R153). -/

namespace Sys2Proof.Machine

/-- The triple of a buffer partition. -/
structure Split where
  lead : Nat
  words : Nat
  trail : Nat
  deriving DecidableEq, Repr, Inhabited

/-- `(8 - a) & 7`, `8 - a` modulo 2^64 (43_driver.md R152). -/
def leadCount (a : Word64) : Nat := ((8 - a) &&& 7).toNat

/-- `Partition(a, n)` (43_driver.md R150), with the short-buffer policy of R151. -/
def partition (a : Word64) (n : Nat) : Split :=
  if n < 8 then ⟨0, 0, n⟩
  else ⟨leadCount a, (n - leadCount a) / 8, (n - leadCount a) % 8⟩

end Sys2Proof.Machine
end

