-- ==== Sys2Proof/Machine/Driver.lean ====
section
/-! DEFINITION. The partitioner command and the alignment-splitting driver: PART and CSUM (43_driver.md R155 to
R157). -/

namespace Sys2Proof.Machine

/-- `Partition(L.ADDR, L.LEN)` of the latched command. -/
def HzcUnit.split (u : HzcUnit) : Split := partition u.lAddr u.count

/-- The writes of PLEAD, PWORDS and PTRAIL (10_state.md R32). -/
def HzcUnit.writeSplit (u : HzcUnit) (t : Split) : HzcUnit :=
  { u with
    plead := BitVec.ofNat 32 t.lead, pwords := BitVec.ofNat 32 t.words, ptrail := BitVec.ofNat 32 t.trail }

/-- Issue of PART: ACC unchanged, no phase. -/
def startPart (u : HzcUnit) : HzcUnit := u.issue (opCode .part) u.acc []

/-- PART: the CMD write of its word (43_driver.md R155). -/
def execPart (s : State) : Result := s.command noCheck startPart

/-- Completion of PART: the partition, and RESULT unchanged. -/
def completePart (_ : Platform) (u : HzcUnit) : HzcUnit := (u.writeSplit u.split).finish

/-- The phases of CSUM: leading bytes, words, trailing bytes (43_driver.md R157). -/
def csumPhases (a : Word64) (t : Split) : List Phase :=
  [⟨.byte, a, t.lead⟩,
   ⟨.word, a + BitVec.ofNat 64 t.lead, t.words⟩,
   ⟨.byte, a + BitVec.ofNat 64 t.lead + BitVec.ofNat 64 (8 * t.words), t.trail⟩]

/-- Issue of CSUM: `ACC <- zext_64(L.SEED[31:0])`, the phases of R157. -/
def startCsum (u : HzcUnit) : HzcUnit :=
  u.issue (opCode .csum) (zext64 (lo32 u.seed)) (csumPhases u.addr (partition u.addr u.len.toNat))

/-- CSUM: the CMD write of its word (43_driver.md R156). -/
def execCsum (s : State) : Result := s.command byteRangeCheck startCsum

/-- Completion of CSUM: `RESULT <- zext_64(ACC[31:0])` (43_driver.md R159), and the partition. -/
def completeCsum (_ : Platform) (u : HzcUnit) : HzcUnit :=
  (u.writeSplit u.split).completeResult (zext64 (lo32 u.acc))

end Sys2Proof.Machine
end

