-- ==== Sys2Proof/Machine/Probe.lean ====
section
/-! DEFINITION. PROBE (40_probe.md R100). -/

namespace Sys2Proof.Machine

/-- Issue of PROBE: ACC unchanged, no phase. -/
def startProbe (u : HzcUnit) : HzcUnit := u.issue (opCode .probe) u.acc []

/-- PROBE: the CMD write of its word (40_probe.md R100, 60_exceptions.md R181). -/
def execProbe (s : State) : Result := s.command noCheck startProbe

/-- Completion of PROBE: `RESULT <- zext_64(CAP)`. -/
def completeProbe (p : Platform) (u : HzcUnit) : HzcUnit :=
  u.completeResult ((BitVec.ofBool (capOf p)).setWidth 64)

end Sys2Proof.Machine
end

