-- ==== Sys2Proof/Machine/WordAcc.lean ====
section
/-! DEFINITION. The word-granularity accumulator: FOLD64 and CSUMW (42_word_accumulator.md R132 to R134). -/

namespace Sys2Proof.Machine

/-- The 8 bytes of a memory at an address, as `MemRead(a, 8)` returns them (20_memory.md R52). -/
def memWord (m : List Host.Cell) (a : Word64) : Word64 :=
  leValue ((List.range 8).map fun k => Memory.read m (a + BitVec.ofNat 64 k).toNat)

/-- `WordRun(c, a, m)`: the fold of words of a memory, from address `a` upward (42_word_accumulator.md R132). -/
def wordRun (m : List Host.Cell) (c : Word64) (a : Word64) : Nat → Word64
  | 0 => c
  | n + 1 => wordRun m (wordStep c (memWord m a)) (a + 8) n

/-- Issue of FOLD64: ACC from the low half of the latched seed, as every command initialises it (10_state.md R39, R33;
DEDUCED, log entry 6), and no phase. -/
def startFold64 (u : HzcUnit) : HzcUnit := u.issue (opCode .fold64) (zext64 (lo32 u.seed)) []

/-- FOLD64: the CMD write of its word (42_word_accumulator.md R133). -/
def execFold64 (s : State) : Result := s.command capCheck startFold64

/-- Completion of FOLD64: `RESULT <- WordStep(L.SEED, L.DATA)`. -/
def completeFold64 (_ : Platform) (u : HzcUnit) : HzcUnit := u.completeResult (wordStep u.lSeed u.lData)

/-- Issue of CSUMW: `ACC <- L.SEED`, all 64 bits, one WORD phase over the words. -/
def startCsumw (u : HzcUnit) : HzcUnit :=
  u.issue (opCode .csumw) u.seed [⟨.word, u.addr, u.len.toNat⟩]

/-- CSUMW: the CMD write of its word (42_word_accumulator.md R134). -/
def execCsumw (s : State) : Result := s.command wordRangeCheck startCsumw

/-- Completion of CSUMW: `RESULT <- ACC`, the whole container. -/
def completeCsumw (_ : Platform) (u : HzcUnit) : HzcUnit := u.completeResult u.acc

end Sys2Proof.Machine
end

