-- ==== Sys2Proof/Machine/Sequencer.lean ====
section
/-! DEFINITION. A step of an instance's sequencer (10_state.md R36): complete, drop an empty phase, or read and
fold one unit. -/

namespace Sys2Proof.Machine

/-- The completion writes of a command's rule, with BUSY and DONE (10_state.md R36). -/
def completeInstr (p : Platform) (i : Instr) (u : HzcUnit) : HzcUnit :=
  match i with
  | .probe => completeProbe p u
  | .fold8 => completeFold8 p u
  | .fold64 => completeFold64 p u
  | .csumb => completeCsumb p u
  | .csumw => completeCsumw p u
  | .csum => completeCsum p u
  | .part => completePart p u

/-- The bytes of one unit of a phase (20_memory.md R55). -/
def PhaseKind.width : PhaseKind → Nat
  | .byte => 1
  | .word => 8

/-- The record after one unit of it is folded (10_state.md R36). After the unit that ends at the top of the buffer
space the cursor is 0, with nothing left (DEDUCED, log entry 14). -/
def Phase.advance (f : Phase) : Phase :=
  { f with cursor := f.cursor + BitVec.ofNat 64 f.kind.width, remaining := f.remaining - 1 }

/-- ACC after one unit with value `v` is folded into it (10_state.md R36). -/
def foldUnit (kind : PhaseKind) (acc v : Word64) : Word64 :=
  match kind with
  | .byte => zext64 (byteFold (lo32 acc) (v.setWidth 8))
  | .word => zext64 (wordFold (lo32 acc) v)

/-- Read and fold one unit of phase `f`, the head of Q of instance `k`, and record the read (10_state.md R36,
20_memory.md R59). -/
def State.foldStep (s : State) (k : Nat) (u : HzcUnit) (f : Phase) (rest : List Phase) : Result :=
  if (readAddresses f.cursor f.kind.width).all (readableAt s.platform) then
    .next ((s.record ⟨k, f.cursor, f.kind.width, s.readValue u f.cursor f.kind.width⟩).setUnit k
      { u with acc := foldUnit f.kind u.acc (s.readValue u f.cursor f.kind.width), q := f.advance :: rest })
  else .fault .unreadable

/-- What a step of a busy sequencer does (10_state.md R36). -/
def State.busyStep (s : State) (k : Nat) (u : HzcUnit) : Result :=
  match u.q with
  | [] =>
    match opInstr u.lOp with
    | some i => .next (s.setUnit k (completeInstr s.platform i u))
    | none => .fault .noLatchedCommand
  | f :: rest => if f.remaining = 0 then .next (s.setUnit k { u with q := rest }) else s.foldStep k u f rest

/-- A step of the sequencer of instance `k`: enabled while BUSY = 1, and nothing otherwise (10_state.md R36,
60_exceptions.md R196). -/
def State.seqStep (s : State) (k : Nat) : Result :=
  match s.units[k]? with
  | some u => if u.busy then s.busyStep k u else .next s
  | none => .fault .noSuchUnit

/-- `n` steps of the sequencer of instance `k`, with no event between them. -/
def State.seqRun (k : Nat) : Nat → State → Result
  | 0, s => .next s
  | n + 1, s =>
    match s.seqStep k with
    | .next t => State.seqRun k n t
    | .fault e => .fault e
    | .refused r => .refused r

end Sys2Proof.Machine
end

