-- ==== Sys2Proof/Machine/Dispatch.lean ====
section
/-! DEFINITION. One arm per command. The meaning of a command is the CMD write of its word at the selected
instance (60_exceptions.md R181, 10_state.md R36); its phases and its completion are sequencer steps. -/

namespace Sys2Proof.Machine

def exec (i : Instr) (s : State) : Host.Outcome State Fault Refusal :=
  match i with
  | .probe => Sys2Proof.Machine.execProbe s
  | .fold8 => Sys2Proof.Machine.execFold8 s
  | .fold64 => Sys2Proof.Machine.execFold64 s
  | .csumb => Sys2Proof.Machine.execCsumb s
  | .csumw => Sys2Proof.Machine.execCsumw s
  | .csum => Sys2Proof.Machine.execCsum s
  | .part => Sys2Proof.Machine.execPart s

end Sys2Proof.Machine
end

