-- ==== Sys2Proof/Machine/Window.lean ====
section
/-! DEFINITION. Host accesses to the register window (10_state.md R22 to R32, 30_encoding.md R76). -/

namespace Sys2Proof.Machine

/-- The 4-byte lanes of the window (10_state.md R22, R23). -/
inductive Lane where
  | cmd
  | status
  | ctrl
  | seedLo
  | seedHi
  | addrLo
  | addrHi
  | len
  | dataLo
  | dataHi
  | resultLo
  | resultHi
  | plead
  | pwords
  | ptrail
  | reserved
  deriving DecidableEq, Repr, Inhabited

/-- The lane at an offset that is a multiple of 4 (10_state.md R22). -/
def laneAt (off : BitVec 8) : Lane :=
  match off with
  | 0x00#8 => .cmd
  | 0x04#8 => .status
  | 0x08#8 => .ctrl
  | 0x10#8 => .seedLo
  | 0x14#8 => .seedHi
  | 0x18#8 => .addrLo
  | 0x1C#8 => .addrHi
  | 0x20#8 => .len
  | 0x28#8 => .dataLo
  | 0x2C#8 => .dataHi
  | 0x30#8 => .resultLo
  | 0x34#8 => .resultHi
  | 0x38#8 => .plead
  | 0x3C#8 => .pwords
  | 0x40#8 => .ptrail
  | _ => .reserved

/-- What a host reads in a lane: write-only and reserved lanes read as zero (10_state.md R22, R23). -/
def HzcUnit.readLane (p : Platform) (u : HzcUnit) : Lane → Word32
  | .cmd | .ctrl | .reserved => 0
  | .status => u.status p
  | .seedLo => lo32 u.seed
  | .seedHi => hi32 u.seed
  | .addrLo => lo32 u.addr
  | .addrHi => hi32 u.addr
  | .len => u.len
  | .dataLo => lo32 u.data
  | .dataHi => hi32 u.data
  | .resultLo => lo32 u.result
  | .resultHi => hi32 u.result
  | .plead => u.plead
  | .pwords => u.pwords
  | .ptrail => u.ptrail

/-- What a host write to a lane other than CMD does: read-only and reserved lanes ignore it (10_state.md R23);
CTRL with SRST = 1 resets the instance (R26). A write of CMD is no lane write (R24). -/
def HzcUnit.writeLane (u : HzcUnit) (l : Lane) (v : Word32) : HzcUnit :=
  match l with
  | .cmd | .status | .reserved | .resultLo | .resultHi | .plead | .pwords | .ptrail => u
  | .ctrl => if v.getLsbD 0 then u.softReset else u
  | .seedLo => { u with seed := join64 (hi32 u.seed) v }
  | .seedHi => { u with seed := join64 v (lo32 u.seed) }
  | .addrLo => { u with addr := join64 (hi32 u.addr) v }
  | .addrHi => { u with addr := join64 v (lo32 u.addr) }
  | .len => { u with len := v }
  | .dataLo => { u with data := join64 (hi32 u.data) v }
  | .dataHi => { u with data := join64 v (lo32 u.data) }

/-- An access the window answers: 4 or 8 bytes at a multiple of its size (10_state.md R23). An 8-byte access at an
offset that is 4 modulo 8 is misaligned (DESIGN CHOICE, log entry 13). -/
def Access.regular (a : Access) : Bool := (a.size == 4 || a.size == 8) && a.offset.toNat % a.size == 0

/-- The value a read of the window returns, zero-extended for a 4-byte read (10_state.md R23). -/
def HzcUnit.readWindow (p : Platform) (u : HzcUnit) (a : Access) : Word64 :=
  if a.regular then
    if a.size = 8 then join64 (u.readLane p (laneAt (a.offset + 4))) (u.readLane p (laneAt a.offset))
    else zext64 (u.readLane p (laneAt a.offset))
  else 0

/-- A regular write that does not reach CMD, lane by lane, the low lane first (10_state.md R23; DEDUCED, log entry
16). -/
def HzcUnit.writeWindow (a : Access) (u : HzcUnit) : HzcUnit :=
  if a.regular then
    if a.size = 8 then (u.writeLane (laneAt a.offset) (lo32 a.value)).writeLane (laneAt (a.offset + 4)) (hi32 a.value)
    else u.writeLane (laneAt a.offset) (lo32 a.value)
  else u

/-- A CMD write of the word `v` at the selected instance: a command runs, an illegal word faults (60_exceptions.md
R181, 30_encoding.md R75). -/
def State.cmdWrite (s : State) (v : Word32) : Result :=
  match decodeWord v with
  | .ok i => exec i s
  | .error _ => s.illegalCommand

/-- Whether an access writes CMD: by itself, or as the low half of an 8-byte write, whose upper half falls on the
read-only STATUS (10_state.md R24). -/
def Access.writesCmd (a : Access) : Bool :=
  match a.dir with
  | .write => a.regular && a.offset == 0
  | .read => false

/-- Whether a read returns STATUS: by itself, or in the upper half of an 8-byte read of CMD (10_state.md R22, R23). -/
def Access.readsStatus (a : Access) : Bool := a.regular && (a.offset == 0x04 || (a.offset == 0x00 && a.size == 8))

/-- A read of the window of the selected instance, which is in the state `u`: the value goes to the host, and no
register changes (10_state.md R23). Reading BUSY = 0 ends what the host owes that instance (20_memory.md R62). -/
def State.hostRead (s : State) (u : HzcUnit) (a : Access) : State :=
  if a.readsStatus && !u.busy then { s with rdata := u.readWindow s.platform a }.endDuty s.sel
  else { s with rdata := u.readWindow s.platform a }

/-- A host access to the window of the selected instance. -/
def State.windowAccess (s : State) (a : Access) : Result :=
  if a.writesCmd then s.cmdWrite (lo32 a.value)
  else
    match a.dir with
    | .write => s.onUnit s.sel (HzcUnit.writeWindow a)
    | .read =>
      match s.units[s.sel]? with
      | some u => .next (s.hostRead u a)
      | none => .fault .noSuchUnit

end Sys2Proof.Machine
end

