-- ==== Sys2Proof/Machine/Events.lean ====
section
/-! DEFINITION. What each event of a schedule does (10_state.md R36, 30_encoding.md R76 to R78). -/

namespace Sys2Proof.Machine

/-- The instance whose window holds a bus address, the first in order where windows overlap (DESIGN
CHOICE, log entry 1), and the offset in it (10_state.md R22). -/
def resolveBus (p : Platform) (address : Word64) : Option (Nat × BitVec 8) :=
  match p.regBase.findIdx? fun b => decide ((address - b).toNat < 256) with
  | some k =>
    match p.regBase[k]? with
    | some b => some (k, (address - b).setWidth 8)
    | none => none
  | none => none

/-- Address an access to instance `k`. -/
def State.select (s : State) (k : Nat) : State := { s with sel := k }

/-- The read of STATUS that `wait` repeats (30_encoding.md R77). -/
def statusRead : Access := ⟨.read, 0x04, 4, 0⟩

/-- The seed write of `chain` (30_encoding.md R78): the low 32 bits of the last window read of the whole machine (DESIGN
CHOICE, log entry 17). -/
def chainWrite (rdata : Word64) : Access := ⟨.write, 0x10, 8, zext64 (lo32 rdata)⟩

/-- One pass of the `wait` loop: the host reads STATUS; while BUSY is 1 it will read again, and the sequencer steps
before it does (weak fairness, 70_reset_and_hazards.md R213; DESIGN CHOICE, log entry 3). -/
def State.waitStep (s : State) (k : Nat) : Result :=
  match (s.select k).windowAccess statusRead with
  | .next t => .next (if t.rdata.getLsbD 0 then { t with sched := .tick k :: .wait k :: t.sched } else t)
  | .fault e => .fault e
  | .refused r => .refused r

/-- What an event does, in a state whose schedule holds the events after it. The seed of `chainSeed` is that of the last
window read of any instance by any host (DESIGN CHOICE, log entry 17). -/
def State.event (s : State) : Event → Result
  | .access k a => (s.select k).windowAccess a
  | .bus address dir size value =>
    match resolveBus s.platform address with
    | some (k, off) => (s.select k).windowAccess ⟨dir, off, size, value⟩
    | none => .refused .outsideWindows
  | .store address b => .next (s.hostStore address b)
  | .resetInput k => s.resetUnit k
  | .tick k => s.seqStep k
  | .wait k => s.waitStep k
  | .chainSeed k => (s.select k).windowAccess (chainWrite s.rdata)

/-- What happens when no event is scheduled: the first busy instance's sequencer steps, and an idle machine stays
as it is (60_exceptions.md R196; weak fairness, 70_reset_and_hazards.md R213; DESIGN CHOICE, log entry 3). -/
def State.quietStep (s : State) : Result :=
  match s.units.findIdx? (·.busy) with
  | some k => s.seqStep k
  | none => .next s

/-- The CMD write that issues the word `w` (30_encoding.md R77, `issue`). -/
def issueAccess (w : Word64) : Access := ⟨.write, 0x00, 4, w⟩

end Sys2Proof.Machine
end

