-- ==== Sys2Proof/Machine/Step.lean ====
section
/-! DEFINITION. One step of the machine: the next event of the schedule, or the sequencers when none is scheduled. -/

namespace Sys2Proof.Machine

/-- One step (10_state.md R36: accesses and sequencer steps are serialised, one at a time). -/
def step (s : State) : Host.Outcome State Fault Refusal :=
  match s.sched with
  | [] => s.quietStep
  | e :: rest => { s with sched := rest }.event e

/-- The state whose very next step is the CMD write of the word `w` at the selected instance. HZC fetches no
instruction (20_memory.md R66): a command comes from the host, so it is put at the head of the schedule (DESIGN CHOICE, log entry 4). -/
def State.withFetchWord (s : State) (nbits w : Nat) : State :=
  { s with sched := .access s.sel (issueAccess (BitVec.ofNat 64 (w % 2 ^ nbits))) :: s.sched }

end Sys2Proof.Machine
end

