-- ==== Sys2Proof/Machine/HostProgram.lean ====
section
/-! DEFINITION. The assembler statements and pseudo-instructions of host programs, as events (30_encoding.md R77,
R78). -/

namespace Sys2Proof.Machine

/-- The register names of the window (10_state.md R22). -/
inductive Reg where
  | cmd
  | status
  | ctrl
  | seed
  | addr
  | len
  | data
  | result
  | plead
  | pwords
  | ptrail
  deriving DecidableEq, Repr, Inhabited

/-- A register name stands for its offset (30_encoding.md R77, 10_state.md R22). -/
def regOffset : Reg → BitVec 8
  | .cmd => 0x00
  | .status => 0x04
  | .ctrl => 0x08
  | .seed => 0x10
  | .addr => 0x18
  | .len => 0x20
  | .data => 0x28
  | .result => 0x30
  | .plead => 0x38
  | .pwords => 0x3C
  | .ptrail => 0x40

/-- The statements (30_encoding.md R77). `chainSeed` is the data flow inside `chain` (R78): `wr64 SEED, r` with `r`
the low 32 bits of the last window read of the whole machine (DESIGN CHOICE, log entry 17). -/
inductive Stmt where
  | wr32 (r : Reg) (v : Word32)
  | wr64 (r : Reg) (v : Word64)
  | rd32 (r : Reg)
  | rd64 (r : Reg)
  | issue (i : Instr)
  | wait
  | srst
  | chainSeed
  deriving DecidableEq, Repr, Inhabited

/-- The encoding of a statement for instance `k` (30_encoding.md R77). -/
def stmtEvent (k : Nat) : Stmt → Event
  | .wr32 r v => .access k ⟨.write, regOffset r, 4, zext64 v⟩
  | .wr64 r v => .access k ⟨.write, regOffset r, 8, v⟩
  | .rd32 r => .access k ⟨.read, regOffset r, 4, 0⟩
  | .rd64 r => .access k ⟨.read, regOffset r, 8, 0⟩
  | .issue i => .access k (issueAccess (zext64 (encodeWord i)))
  | .wait => .wait k
  | .srst => .access k ⟨.write, 0x08, 4, 1⟩
  | .chainSeed => .chainSeed k

/-- `probe`. -/
def hostProbe : List Stmt := [.issue .probe, .wait]

/-- `fold8 s, d`. -/
def hostFold8 (s d : Word64) : List Stmt := [.wr64 .seed s, .wr64 .data d, .issue .fold8, .wait]

/-- `fold64 s, d`. -/
def hostFold64 (s d : Word64) : List Stmt := [.wr64 .seed s, .wr64 .data d, .issue .fold64, .wait]

/-- `csumb s, a, n`. -/
def hostCsumb (s a : Word64) (n : Word32) : List Stmt :=
  [.wr64 .seed s, .wr64 .addr a, .wr32 .len n, .issue .csumb, .wait]

/-- `csumw s, a, c`. -/
def hostCsumw (s a : Word64) (c : Word32) : List Stmt :=
  [.wr64 .seed s, .wr64 .addr a, .wr32 .len c, .issue .csumw, .wait]

/-- `csum s, a, n`. -/
def hostCsum (s a : Word64) (n : Word32) : List Stmt :=
  [.wr64 .seed s, .wr64 .addr a, .wr32 .len n, .issue .csum, .wait]

/-- `part a, n`. -/
def hostPart (a : Word64) (n : Word32) : List Stmt := [.wr64 .addr a, .wr32 .len n, .issue .part, .wait]

/-- `chain a, n`: the result read becomes the seed of a CSUM (43_driver.md R160). -/
def hostChain (a : Word64) (n : Word32) : List Stmt :=
  [.rd64 .result, .chainSeed, .wr64 .addr a, .wr32 .len n, .issue .csum, .wait]

/-- Schedule a program of instance `k` after what is scheduled. -/
def State.withProgram (s : State) (k : Nat) (program : List Stmt) : State :=
  { s with sched := s.sched ++ program.map (stmtEvent k) }

end Sys2Proof.Machine
end

