-- ==== Sys2Proof/Safety.lean ====
section
/-! DEFINITION. What claims are stated in terms of: when a command is accepted, what a run of one command is, the
invariants of the machine, and what counts as a clean run (60_exceptions.md R184, R188). -/

namespace Sys2Proof.Machine

/-- An instance that accepts commands: no fault and no command in progress (60_exceptions.md R181). -/
def HzcUnit.ready (u : HzcUnit) : Prop := u.err = .none ∧ u.busy = false

/-- The commands that use the CRC instruction (60_exceptions.md R182). -/
def usesCrc : Instr → Bool
  | .fold8 | .fold64 | .csumb | .csumw | .csum => true
  | .probe | .part => false

/-- What 60_exceptions.md R181 asks of the operands and the platform for a command to be accepted by a ready
instance. -/
def HzcUnit.admits (p : Platform) (u : HzcUnit) (i : Instr) : Prop :=
  (usesCrc i = true → capOf p = true) ∧ (i = .csumw → u.addr.toNat % 8 = 0) ∧
    inRange p u.addr (extentOf i u.len.toNat) = true

/-- The sequencer steps of a command from issue to completion (70_reset_and_hazards.md R213). -/
def commandSteps (i : Instr) (a : Word64) (n : Nat) : Nat :=
  match i with
  | .probe | .fold8 | .fold64 | .part => 1
  | .csumb | .csumw => n + 2
  | .csum => (partition a n).lead + (partition a n).words + (partition a n).trail + 4

/-- Issue a command at the selected instance and let its sequencer take `n` steps, with no event between them. -/
def runCommand (i : Instr) (n : Nat) (s : State) : Result :=
  match exec i s with
  | .next t => State.seqRun s.sel n t
  | .fault e => .fault e
  | .refused r => .refused r

/-- Issue a command at the selected instance and let its sequencer take the steps the command needs. -/
def runWhole (i : Instr) (s : State) : Result :=
  match s.units[s.sel]? with
  | some u => runCommand i (commandSteps i u.addr u.len.toNat) s
  | none => .fault .noSuchUnit

/-- The number of the instance an event concerns, where it concerns one: a host store concerns none, and a bus
access the one whose window it falls in. -/
def eventUnit (p : Platform) : Event → Option Nat
  | .access k _ | .resetInput k | .tick k | .wait k | .chainSeed k => some k
  | .bus address _ _ _ => (resolveBus p address).map Prod.fst
  | .store _ _ => none

/-- The read events of `n` byte reads from address `a` on, in their order (20_memory.md R55, R59). -/
def byteReads (m : List Host.Cell) (k : Nat) (a : Word64) : Nat → List ReadEvent
  | 0 => []
  | n + 1 => ⟨k, a, 1, (Memory.read m a.toNat).setWidth 64⟩ :: byteReads m k (a + 1) n

/-- The read events of `n` word reads from address `a` on, in their order (20_memory.md R55, R59). -/
def wordReads (m : List Host.Cell) (k : Nat) (a : Word64) : Nat → List ReadEvent
  | 0 => []
  | n + 1 => ⟨k, a, 8, memWord m a⟩ :: wordReads m k (a + 8) n

/-- The state with the read events `rs`, in their order, added to its history. -/
def State.addReads (s : State) (rs : List ReadEvent) : State := { s with history := rs.reverse ++ s.history }

/-- A read of `size` bytes at offset `off` of the selected instance's window returns `r` to the host and changes no
register; it may end what the host owes (20_memory.md R62). -/
def State.readsAs (s : State) (off : BitVec 8) (size : Nat) (r : Word64) : Prop :=
  ∀ value, ∃ duty, s.windowAccess ⟨.read, off, size, value⟩ = .next { s with rdata := r, duty := duty }

/-- The carry-less product of an 8-bit polynomial and the CRC-32C polynomial `0x11EDC6F41` (41_byte_accumulator.md
R111). -/
def timesDivisor (q : Byte) : BitVec 40 :=
  (List.range 8).foldl (fun t k => if q.getLsbD k then t ^^^ ((0x11EDC6F41 : BitVec 40) <<< k) else t) 0

/-- A phase record that has units left stays inside the latched read range, words at multiples of 8 (10_state.md
R36, 20_memory.md R54). A record with none left is not read from. -/
def HzcUnit.holdsPhase (u : HzcUnit) (f : Phase) : Prop :=
  f.remaining = 0 ∨
    (u.lAddr.toNat ≤ f.cursor.toNat ∧
      f.cursor.toNat + f.kind.width * f.remaining ≤ u.lAddr.toNat + u.extent ∧
      (f.kind = .word → f.cursor.toNat % 8 = 0))

/-- Two phase records in address order (10_state.md R35), where both have units left. -/
def Phase.before (f g : Phase) : Prop :=
  f.remaining = 0 ∨ g.remaining = 0 ∨ f.cursor.toNat + f.kind.width * f.remaining ≤ g.cursor.toNat

/-- The invariant of one instance. -/
structure HzcUnit.Inv (p : Platform) (u : HzcUnit) : Prop where
  /-- BUSY and DONE are never both 1 (10_state.md R25). -/
  busyNotDone : u.busy = true → u.done = false
  /-- ERR non-zero implies BUSY = 0 and DONE = 0 (10_state.md R25). -/
  faultIdle : u.err ≠ .none → u.busy = false ∧ u.done = false
  /-- When BUSY = 0, Q is empty (10_state.md R35). -/
  idleEmpty : u.busy = false → u.q = []
  /-- Q has at most three records (10_state.md R35). -/
  threePhases : u.q.length ≤ 3
  /-- A command in progress has a command code in L.OP (10_state.md R36). -/
  latched : u.busy = true → ∃ i, opInstr u.lOp = some i
  /-- A CRC command in progress has the capability (60_exceptions.md R182). -/
  capable : u.busy = true → ∀ i, opInstr u.lOp = some i → usesCrc i = true → capOf p = true
  /-- The read range of a command in progress was admitted (20_memory.md R51). -/
  admitted : u.busy = true → inRange p u.lAddr u.extent = true
  /-- The phases stay inside that range, aligned (20_memory.md R54). -/
  inside : ∀ f ∈ u.q, u.holdsPhase f
  /-- The phases are in address order (10_state.md R35). -/
  ordered : u.q.Pairwise Phase.before
  /-- ACC[63:32] is non-zero in progress only for CSUMW that has folded no word (10_state.md R33). PROBE and PART
  leave ACC as they find it (40_probe.md R100, 43_driver.md R155). -/
  container : u.busy = true → ∀ i, opInstr u.lOp = some i → usesCrc i = true →
    hi32 u.acc = 0 ∨
      (i = .csumw ∧ u.acc = u.lSeed ∧ (u.q = [⟨.word, u.lAddr, u.count⟩] ∨ u.count = 0))
  /-- PLEAD and PTRAIL are at most 7 and PWORDS at most (2^32 - 1) div 8 (10_state.md R32). -/
  pBounds : u.plead.toNat ≤ 7 ∧ u.ptrail.toNat ≤ 7 ∧ u.pwords.toNat ≤ (2 ^ 32 - 1) / 8

/-- A recorded read is one byte, or a word at a multiple of 8, and all its bytes are readable (20_memory.md R51,
R54). -/
def ReadEvent.proper (p : Platform) (e : ReadEvent) : Prop :=
  (e.width = 1 ∨ e.width = 8 ∧ e.address.toNat % 8 = 0) ∧
    ∀ x ∈ readAddresses e.address e.width, readableAt p x = true

/-- The invariant of the machine. -/
structure State.Inv (s : State) : Prop where
  /-- There is at least one instance (00_scope.md R5). -/
  someUnit : s.units ≠ []
  /-- Every instance meets its invariant. -/
  unitInv : ∀ u ∈ s.units, u.Inv s.platform
  /-- The buffer space is in canonical form. -/
  memWf : Memory.wf s.mem = true
  /-- Every recorded read is proper. -/
  reads : ∀ e ∈ s.history, e.proper s.platform
  /-- The host owes the read range of every command in progress (20_memory.md R62). -/
  owed : ∀ (k : Nat) (u : HzcUnit), s.units[k]? = some u → u.busy = true →
    u.extent = 0 ∨ ⟨k, u.lAddr, u.extent⟩ ∈ s.duty
  /-- A store that raced is recorded (60_exceptions.md R188). -/
  raceKept : ∀ u ∈ s.units, u.raced ≠ [] → s.hostRace = true

/-- A clean state: no HostRace in the run so far, and no instance in the fault state (60_exceptions.md R184,
R188). -/
def State.clean (s : State) : Prop := s.hostRace = false ∧ ∀ u ∈ s.units, u.err = .none

end Sys2Proof.Machine
end

