-- ==== Sys2Proof/Certificates/Slice0/Obligations.lean ====
section
/-! DEFINITION. The statements for the provers. Every next state is written out field by field over the state
before it, so each of these statements says what is left unchanged as well (the frame). -/

open Sys2Proof Sys2Proof.Machine

/-! ## Encoding -/

/-- 30_encoding.md R72: each command word of the table decodes to its command. -/
def Obligations.CommandWordsDecodeToTheirCommands : Prop :=
  decodeWord 0x00000001 = .ok .probe ∧ decodeWord 0x00000002 = .ok .fold8 ∧ decodeWord 0x00000003 = .ok .fold64 ∧
    decodeWord 0x00000004 = .ok .csumb ∧ decodeWord 0x00000005 = .ok .csumw ∧ decodeWord 0x00000006 = .ok .csum ∧
    decodeWord 0x00000007 = .ok .part

/-- 30_encoding.md R72: a word selects a command exactly when bits 31:4 are zero and bits 3:0 are its code, with
the codes of the table; and every word selects a command or is rejected (R75). -/
def Obligations.DecoderAcceptsExactlyTheCommandWords : Prop :=
  (∀ (w : Word32) (i : Instr), decodeWord w = .ok i ↔ w.extractLsb' 4 28 = 0 ∧ w.extractLsb' 0 4 = opCode i) ∧
    (∀ w : Word32, (∃ i, decodeWord w = .ok i) ∨ ∃ e, decodeWord w = .error e) ∧
    opCode .probe = 1 ∧ opCode .fold8 = 2 ∧ opCode .fold64 = 3 ∧ opCode .csumb = 4 ∧ opCode .csumw = 5 ∧
    opCode .csum = 6 ∧ opCode .part = 7

/-- Decoding the bytes of a command gives it back, and the bytes after it. -/
def Obligations.EncodedCommandsDecodeBack : Prop :=
  ∀ (i : Instr) (rest : List Byte), i.wellFormed = true → decode (encode i ++ rest) = .ok (i, rest)

/-- 30_encoding.md R73: the illegal words are those with a reserved bit set or a reserved code. -/
def Obligations.IllegalWordsAreTheReservedOnes : Prop :=
  ∀ w : Word32, (∃ e, decodeWord w = .error e) ↔
    (w.extractLsb' 4 28 ≠ 0 ∨ w.extractLsb' 0 4 = 0 ∨ 8 ≤ (w.extractLsb' 0 4).toNat)

/-! ## The CMD write: what runs, and in which order the errors come -/

/-- A step whose event is a CMD write (4 bytes, or the low half of 8 bytes at offset 0) of a command's word is that
command at the addressed instance, in the state without the event. -/
def Obligations.CmdWriteStepRunsTheDecodedCommand : Prop :=
  ∀ (s : State) (k : Nat) (size : Nat) (value : Word64) (rest : List Event) (i : Instr),
    s.sched = .access k ⟨.write, 0x00, size, value⟩ :: rest → size = 4 ∨ size = 8 →
    decodeWord (value.setWidth 32) = .ok i → step s = exec i { s with sched := rest, sel := k }

/-- 30_encoding.md R73: a CMD word with a reserved bit set or a reserved code faults with BADOP at an instance that
would take a command, and has no other effect. -/
def Obligations.IllegalCmdWordFaultsBadop : Prop :=
  ∀ (s : State) (k : Nat) (size : Nat) (value : Word64) (rest : List Event) (u : HzcUnit) (w : Word32),
    s.sched = .access k ⟨.write, 0x00, size, value⟩ :: rest → size = 4 ∨ size = 8 →
    w = value.setWidth 32 → (w.extractLsb' 4 28 ≠ 0 ∨ w.extractLsb' 0 4 = 0 ∨ 8 ≤ (w.extractLsb' 0 4).toNat) →
    s.units[k]? = some u → u.ready →
    step s = .next (State.setUnit { s with sched := rest, sel := k } k
      { u with err := .badop, busy := false, done := false, q := [] })

/-- 60_exceptions.md R184: while ERR is set, every CMD write, of a command or not, is ignored. -/
def Obligations.CmdWritesAreIgnoredWhileErrIsSet : Prop :=
  ∀ (s : State) (u : HzcUnit) (v : Word32), s.units[s.sel]? = some u → u.err ≠ .none →
    s.cmdWrite v = .next s ∧ ∀ i, exec i s = .next s

/-- 60_exceptions.md R186: a CMD write while BUSY = 1, whatever its word, drops the phases and raises BUSY; nothing
is completed, the recorded reads stay, and the sequencer does nothing more. -/
def Obligations.CmdWriteWhileBusyAborts : Prop :=
  ∀ (s : State) (u : HzcUnit), s.units[s.sel]? = some u → u.err = .none → u.busy = true →
    ∃ t, t = s.setUnit s.sel { u with err := .busy, busy := false, done := false, q := [] } ∧
      (∀ v, s.cmdWrite v = .next t) ∧ (∀ i, exec i s = .next t) ∧ t.seqStep s.sel = .next t

/-- 60_exceptions.md R182: without the capability the five CRC commands fault with UNSUPPORTED, whatever their count
and operands, and PROBE and PART are accepted. -/
def Obligations.CrcCommandsNeedTheCapability : Prop :=
  ∀ (s : State) (u : HzcUnit), s.units[s.sel]? = some u → u.ready → s.platform.featWord.getLsbD 20 = false →
    (∀ i, i = .fold8 ∨ i = .fold64 ∨ i = .csumb ∨ i = .csumw ∨ i = .csum →
      exec i s = .next (s.setUnit s.sel { u with err := .unsupported, busy := false, done := false, q := [] })) ∧
    (∀ i, i = .probe ∨ i = .part → ∃ v, exec i s = .next (s.setUnit s.sel v) ∧ v.err = .none ∧ v.busy = true)

/-- 60_exceptions.md R181: a capable CSUMW at an address that is no multiple of 8 faults with ALIGN, before the range
is looked at and whatever the count. -/
def Obligations.MisalignedCsumwFaultsAlign : Prop :=
  ∀ (s : State) (u : HzcUnit), s.units[s.sel]? = some u → u.ready → capOf s.platform = true →
    u.addr.toNat % 8 ≠ 0 →
    exec .csumw s = .next (s.setUnit s.sel { u with err := .align, busy := false, done := false, q := [] })

/-- 60_exceptions.md R181, 20_memory.md R51: a range that passes 2^64 or holds a byte that is not readable faults
with RANGE at the CMD write. -/
def Obligations.RangesNotReadableFaultRange : Prop :=
  ∀ (s : State) (u : HzcUnit) (i : Instr), s.units[s.sel]? = some u → u.ready → capOf s.platform = true →
    i = .csumb ∨ i = .csum ∨ i = .csumw → (i = .csumw → u.addr.toNat % 8 = 0) →
    (2 ^ 64 < u.addr.toNat + extentOf i u.len.toNat ∨
      ∃ j, j < extentOf i u.len.toNat ∧ readableAt s.platform (u.addr + BitVec.ofNat 64 j) = false) →
    exec i s = .next (s.setUnit s.sel { u with err := .range, busy := false, done := false, q := [] })

/-- 20_memory.md R51: the definition of InRange, the sum exact; and a range of no bytes is in range anywhere. -/
def Obligations.InRangeMeansEveryByteIsReadable : Prop :=
  ∀ (p : Platform) (a : Word64) (n : Nat),
    (inRange p a n = true ↔
      a.toNat + n ≤ 2 ^ 64 ∧ ∀ j, j < n → readableAt p (a + BitVec.ofNat 64 j) = true) ∧
    inRange p a 0 = true

/-! ## Each command, from its CMD write to its completion -/

/-- 40_probe.md R100: PROBE is accepted in every ready instance, reads nothing, and one sequencer step later RESULT
is CAP and DONE is 1. -/
def Obligations.ProbeReportsTheCapability : Prop :=
  ∀ (s : State) (u : HzcUnit), s.units[s.sel]? = some u → u.ready →
    ∃ v, v = { u with
        busy := true, done := false, q := [], raced := []
        lOp := 1, lSeed := u.seed, lAddr := u.addr, lLen := u.len, lData := u.data } ∧
      exec .probe s = .next (s.setUnit s.sel v) ∧
      State.seqRun s.sel 1 (s.setUnit s.sel v) = .next (s.setUnit s.sel
        { v with
          busy := false, done := true
          result := if s.platform.featWord.getLsbD 20 then 0x0000000000000001 else 0x0000000000000000 })

/-- 41_byte_accumulator.md R113: FOLD8 reads nothing, and one sequencer step later RESULT is the byte fold of the low
seed and the low byte of DATA. ACC starts from the low seed (10_state.md R39, R33: log
entry 6). -/
def Obligations.Fold8ComputesTheByteFold : Prop :=
  ∀ (s : State) (u : HzcUnit), s.units[s.sel]? = some u → u.ready → capOf s.platform = true →
    ∃ v, v = { u with
        busy := true, done := false, q := [], raced := [], acc := (u.seed.setWidth 32).setWidth 64
        lOp := 2, lSeed := u.seed, lAddr := u.addr, lLen := u.len, lData := u.data } ∧
      exec .fold8 s = .next (s.setUnit s.sel v) ∧
      State.seqRun s.sel 1 (s.setUnit s.sel v) = .next (s.setUnit s.sel
        { v with
          busy := false, done := true
          result := (byteFold (u.seed.setWidth 32) (u.data.setWidth 8)).setWidth 64 })

/-- 42_word_accumulator.md R133: FOLD64 reads nothing, and one sequencer step later RESULT is the word fold of the
low seed and DATA, its upper half zero whatever SEED[63:32] holds. ACC as for FOLD8 (log entry 6). -/
def Obligations.Fold64ComputesTheWordFold : Prop :=
  ∀ (s : State) (u : HzcUnit), s.units[s.sel]? = some u → u.ready → capOf s.platform = true →
    ∃ v, v = { u with
        busy := true, done := false, q := [], raced := [], acc := (u.seed.setWidth 32).setWidth 64
        lOp := 3, lSeed := u.seed, lAddr := u.addr, lLen := u.len, lData := u.data } ∧
      exec .fold64 s = .next (s.setUnit s.sel v) ∧
      State.seqRun s.sel 1 (s.setUnit s.sel v) = .next (s.setUnit s.sel
        { v with
          busy := false, done := true
          result := (wordFold (u.seed.setWidth 32) u.data).setWidth 64 })

/-- 43_driver.md R155: PART is accepted in every ready instance, with or without the capability and whatever the
range; one sequencer step later the partition stands in PLEAD, PWORDS and PTRAIL, and RESULT is unchanged. -/
def Obligations.PartWritesThePartition : Prop :=
  ∀ (s : State) (u : HzcUnit), s.units[s.sel]? = some u → u.ready →
    ∃ v t, t = partition u.addr u.len.toNat ∧
      v = { u with
        busy := true, done := false, q := [], raced := []
        lOp := 7, lSeed := u.seed, lAddr := u.addr, lLen := u.len, lData := u.data } ∧
      exec .part s = .next (s.setUnit s.sel v) ∧
      State.seqRun s.sel 1 (s.setUnit s.sel v) = .next (s.setUnit s.sel
        { v with
          busy := false, done := true
          plead := BitVec.ofNat 32 t.lead, pwords := BitVec.ofNat 32 t.words, ptrail := BitVec.ofNat 32 t.trail })

/-- 41_byte_accumulator.md R114: CSUMB of a range in range is accepted, reads its bytes one by one in address order,
and after LEN + 2 sequencer steps RESULT is the byte run from the low seed. The host owes the range from the CMD write on
(20_memory.md R62). Nothing else of the machine changes. -/
def Obligations.CsumbFoldsItsBytes : Prop :=
  ∀ (s : State) (u : HzcUnit), s.units[s.sel]? = some u → u.ready → capOf s.platform = true →
    inRange s.platform u.addr u.len.toNat = true →
    ∃ v r, r = (byteRun s.mem (u.seed.setWidth 32) u.addr u.len.toNat).setWidth 64 ∧
      v = { u with
        busy := true, done := false, raced := []
        acc := (u.seed.setWidth 32).setWidth 64, q := [⟨.byte, u.addr, u.len.toNat⟩]
        lOp := 4, lSeed := u.seed, lAddr := u.addr, lLen := u.len, lData := u.data } ∧
      exec .csumb s = .next ((s.setUnit s.sel v).addDuty s.sel u.addr u.len.toNat) ∧
      State.seqRun s.sel (u.len.toNat + 2) ((s.setUnit s.sel v).addDuty s.sel u.addr u.len.toNat) =
        .next (((s.addReads (byteReads s.mem s.sel u.addr u.len.toNat)).addDuty s.sel u.addr u.len.toNat).setUnit s.sel
          { v with busy := false, done := true, q := [], acc := r, result := r })

/-- 42_word_accumulator.md R134: CSUMW of an aligned range in range is accepted, reads its words one by one in address
order, and after LEN + 2 sequencer steps RESULT is the word run from the whole 64-bit seed. The host owes the range
from the CMD write on (20_memory.md R62). Nothing else of the machine changes. -/
def Obligations.CsumwFoldsItsWords : Prop :=
  ∀ (s : State) (u : HzcUnit), s.units[s.sel]? = some u → u.ready → capOf s.platform = true →
    u.addr.toNat % 8 = 0 → inRange s.platform u.addr (8 * u.len.toNat) = true →
    ∃ v r, r = wordRun s.mem u.seed u.addr u.len.toNat ∧
      v = { u with
        busy := true, done := false, raced := []
        acc := u.seed, q := [⟨.word, u.addr, u.len.toNat⟩]
        lOp := 5, lSeed := u.seed, lAddr := u.addr, lLen := u.len, lData := u.data } ∧
      exec .csumw s = .next ((s.setUnit s.sel v).addDuty s.sel u.addr (8 * u.len.toNat)) ∧
      State.seqRun s.sel (u.len.toNat + 2) ((s.setUnit s.sel v).addDuty s.sel u.addr (8 * u.len.toNat)) =
        .next (((s.addReads (wordReads s.mem s.sel u.addr u.len.toNat)).addDuty s.sel u.addr
            (8 * u.len.toNat)).setUnit s.sel
          { v with busy := false, done := true, q := [], acc := r, result := r })

/-- 43_driver.md R156 to R159: CSUM of a range in range is accepted at any alignment, reads the leading bytes, the
aligned words and the trailing bytes of the partition in address order, and after lead + words + trail + 4 sequencer
steps RESULT is the byte run of the WHOLE buffer from the low seed, and PLEAD, PWORDS and PTRAIL are the partition.
The host owes the range from the CMD write on (20_memory.md R62). Nothing else of the machine changes. -/
def Obligations.CsumFoldsTheWholeBuffer : Prop :=
  ∀ (s : State) (u : HzcUnit), s.units[s.sel]? = some u → u.ready → capOf s.platform = true →
    inRange s.platform u.addr u.len.toNat = true →
    ∃ v t r, t = partition u.addr u.len.toNat ∧
      r = (byteRun s.mem (u.seed.setWidth 32) u.addr u.len.toNat).setWidth 64 ∧
      v = { u with
        busy := true, done := false, raced := []
        acc := (u.seed.setWidth 32).setWidth 64
        q := [⟨.byte, u.addr, t.lead⟩, ⟨.word, u.addr + BitVec.ofNat 64 t.lead, t.words⟩,
          ⟨.byte, u.addr + BitVec.ofNat 64 t.lead + BitVec.ofNat 64 (8 * t.words), t.trail⟩]
        lOp := 6, lSeed := u.seed, lAddr := u.addr, lLen := u.len, lData := u.data } ∧
      exec .csum s = .next ((s.setUnit s.sel v).addDuty s.sel u.addr u.len.toNat) ∧
      State.seqRun s.sel (t.lead + t.words + t.trail + 4) ((s.setUnit s.sel v).addDuty s.sel u.addr u.len.toNat) =
        .next (((s.addReads
            (byteReads s.mem s.sel u.addr t.lead ++
              wordReads s.mem s.sel (u.addr + BitVec.ofNat 64 t.lead) t.words ++
              byteReads s.mem s.sel (u.addr + BitVec.ofNat 64 t.lead + BitVec.ofNat 64 (8 * t.words)) t.trail)).addDuty
            s.sel u.addr u.len.toNat).setUnit s.sel
          { v with
            busy := false, done := true, q := [], acc := r, result := r
            plead := BitVec.ofNat 32 t.lead, pwords := BitVec.ofNat 32 t.words
            ptrail := BitVec.ofNat 32 t.trail })

/-- 70_reset_and_hazards.md R213: an accepted command is in progress for exactly its number of sequencer steps (1, or
LEN + 2, or lead + words + trail + 4), and then it has completed without fault. -/
def Obligations.CommandsTakeExactlyTheirSteps : Prop :=
  ∀ (s : State) (u : HzcUnit) (i : Instr), s.units[s.sel]? = some u → u.ready → u.admits s.platform i →
    ∃ t, exec i s = .next t ∧
      (∀ n, n < commandSteps i u.addr u.len.toNat →
        ∃ t' v, State.seqRun s.sel n t = .next t' ∧ t'.units[s.sel]? = some v ∧ v.busy = true ∧ v.done = false) ∧
      ∃ t' v, State.seqRun s.sel (commandSteps i u.addr u.len.toNat) t = .next t' ∧ t'.units[s.sel]? = some v ∧
        v.busy = false ∧ v.done = true ∧ v.err = .none

/-! ## The folds -/

/-- 41_byte_accumulator.md R111: ByteFold is linear over GF(2) in its two operands together. -/
def Obligations.ByteFoldIsLinear : Prop :=
  byteFold 0 0 = 0 ∧
    ∀ (s1 s2 : Word32) (b1 b2 : Byte), byteFold (s1 ^^^ s2) (b1 ^^^ b2) = byteFold s1 b1 ^^^ byteFold s2 b2

/-- 41_byte_accumulator.md R111, both forms. Form 2, the table form; ByteFold depends on its operands only through
s[31:8] and s[7:0] ^ b. Form 1: the reversal of ByteFold is the one remainder of `(rev_8(b) ++ 0) ^ (rev_32(s) ++ 0)`
after carry-less division by 0x11EDC6F41. And two table entries (93_implementation_defined.md G2), which pin the
polynomial. -/
def Obligations.ByteFoldHasItsTableForm : Prop :=
  (∀ (s : Word32) (b : Byte), byteFold s b = (s >>> 8) ^^^ byteFold 0 (s.setWidth 8 ^^^ b)) ∧
    (∀ (s s' : Word32) (b b' : Byte), s.extractLsb' 8 24 = s'.extractLsb' 8 24 →
      s.setWidth 8 ^^^ b = s'.setWidth 8 ^^^ b' → byteFold s b = byteFold s' b') ∧
  (∀ (s r : Word32) (b : Byte),
    (∃ q : Byte, (b.reverse ++ (0 : Word32)) ^^^ (s.reverse ++ (0 : Byte)) = timesDivisor q ^^^ ((0 : Byte) ++ r)) ↔
      r = (byteFold s b).reverse) ∧
  byteFold 0 0x80 = 0x82F63B78 ∧ byteFold 0 0x01 = 0xF26B8303

/-- 42_word_accumulator.md R131: a word read and folded equals its 8 bytes read and folded, and m words folded as
words equal the 8m bytes. -/
def Obligations.WordsFoldAsTheirBytes : Prop :=
  ∀ (m : List Host.Cell) (a : Word64),
    (∀ s, wordFold s (memWord m a) = byteRun m s a 8) ∧
    ∀ (c : Word64) (n : Nat), (wordRun m c a n).setWidth 32 = byteRun m (c.setWidth 32) a (8 * n)

/-- 41_byte_accumulator.md R112: a run of no bytes is the state itself, and a run splits anywhere. -/
def Obligations.ByteRunsSplitAnywhere : Prop :=
  ∀ (m : List Host.Cell) (s : Word32) (a : Word64) (j n : Nat),
    byteRun m s a 0 = s ∧ byteRun m (byteRun m s a j) (a + BitVec.ofNat 64 j) n = byteRun m s a (j + n)

/-- 42_word_accumulator.md R132: a run of no words gives the container back, upper half included; a run of at least
one word ignores the upper half of the container and returns it zero. -/
def Obligations.WordRunsReplaceTheUpperHalf : Prop :=
  ∀ (m : List Host.Cell) (c d a : Word64) (n : Nat),
    wordRun m c a 0 = c ∧ (wordRun m c a (n + 1)).extractLsb' 32 32 = 0 ∧
      (c.setWidth 32 = d.setWidth 32 → wordRun m c a (n + 1) = wordRun m d a (n + 1))

/-! ## The partition -/

/-- 43_driver.md R154, its six invariants, for every start address and every 32-bit count. -/
def Obligations.PartitionMeetsItsInvariants : Prop :=
  (∀ (a : Word64) (n : Nat) (t : Split), n < 2 ^ 32 → t = partition a n →
    t.lead + 8 * t.words + t.trail = n ∧
    t.lead ≤ 7 ∧ t.trail ≤ 7 ∧
    (8 ≤ n → (a.toNat + t.lead) % 8 = 0) ∧
    (∀ x, (x % 8 = 0 ∧ a.toNat ≤ x ∧ x + 8 ≤ a.toNat + n) ↔ ∃ j, j < t.words ∧ x = a.toNat + t.lead + 8 * j) ∧
    t.words ≤ n / 8 ∧ t.words ≤ 536870911) ∧
  ∀ a : Word64, a.toNat % 8 = 1 → partition a 8 = ⟨7, 0, 1⟩

/-- 43_driver.md R151, R152: a buffer of fewer than 8 bytes is trailing only; else the leading count is the distance
to the next multiple of 8, and 0 at a multiple of 8. -/
def Obligations.LeadReachesTheNextBoundary : Prop :=
  ∀ (a : Word64) (n : Nat),
    (n < 8 → partition a n = ⟨0, 0, n⟩) ∧
    (8 ≤ n → (partition a n).lead = (8 - a.toNat % 8) % 8 ∧ (partition a n).lead = (2 ^ 64 - a.toNat) % 8)

/-! ## What the source says of the checksum -/

/-- 43_driver.md R158: CSUM and CSUMB of the same operands give the same RESULT. -/
def Obligations.CsumAgreesWithCsumb : Prop :=
  ∀ (s : State) (u : HzcUnit), s.units[s.sel]? = some u → u.ready → u.admits s.platform .csum →
    ∃ t t' v v', runWhole .csum s = .next t ∧ t.units[s.sel]? = some v ∧
      runWhole .csumb s = .next t' ∧ t'.units[s.sel]? = some v' ∧
      v.done = true ∧ v'.done = true ∧ v.result = v'.result

/-- 43_driver.md R160: a CSUM of the first m bytes, followed by a CSUM of the next k bytes seeded with the RESULT,
gives the RESULT of one CSUM of the m + k bytes. The host's operand writes between the two stand in the state of the
second. -/
def Obligations.CsumComposesOverEverySplit : Prop :=
  ∀ (s : State) (u : HzcUnit) (m k : Nat), s.units[s.sel]? = some u → u.ready → capOf s.platform = true →
    m + k < 2 ^ 32 → inRange s.platform u.addr (m + k) = true →
    ∃ t1 v1 t2 v2 t v,
      runWhole .csum (s.setUnit s.sel { u with len := BitVec.ofNat 32 m }) = .next t1 ∧
      t1.units[s.sel]? = some v1 ∧
      runWhole .csum (t1.setUnit s.sel
        { v1 with seed := v1.result, addr := u.addr + BitVec.ofNat 64 m, len := BitVec.ofNat 32 k }) = .next t2 ∧
      t2.units[s.sel]? = some v2 ∧
      runWhole .csum (s.setUnit s.sel { u with len := BitVec.ofNat 32 (m + k) }) = .next t ∧
      t.units[s.sel]? = some v ∧
      v1.done = true ∧ v2.done = true ∧ v.done = true ∧ v2.result = v.result

/-- 43_driver.md R161: the RESULT of CSUM depends on the seed and the bytes of the buffer, not on where they lie. -/
def Obligations.CsumDependsOnSeedAndBytesOnly : Prop :=
  ∀ (s s' : State) (u u' : HzcUnit),
    s.units[s.sel]? = some u → u.ready → u.admits s.platform .csum →
    s'.units[s'.sel]? = some u' → u'.ready → u'.admits s'.platform .csum →
    u.seed.setWidth 32 = u'.seed.setWidth 32 → u.len = u'.len →
    (∀ j, j < u.len.toNat → Memory.read s.mem (u.addr.toNat + j) = Memory.read s'.mem (u'.addr.toNat + j)) →
    ∃ t t' v v', runWhole .csum s = .next t ∧ t.units[s.sel]? = some v ∧
      runWhole .csum s' = .next t' ∧ t'.units[s'.sel]? = some v' ∧
      v.done = true ∧ v'.done = true ∧ v.result = v'.result

/-! ## The sequencer -/

/-- 10_state.md R36: a step in a BYTE phase reads the byte at the cursor, folds it into the low half of ACC, advances
the cursor by 1 and records the read. The byte is the one in memory unless the host stored to it while the command was
in progress, where it is a free value (the model's choice, log entry 5). -/
def Obligations.SequencerFoldsOneByte : Prop :=
  ∀ (s : State) (k : Nat) (u : HzcUnit) (c : Word64) (r : Nat) (rest : List Phase),
    s.units[k]? = some u → u.busy = true → u.q = ⟨.byte, c, r + 1⟩ :: rest → readableAt s.platform c = true →
    ∃ b : Byte, (c ∉ u.raced → b = Memory.read s.mem c.toNat) ∧
      s.seqStep k = .next ((s.addReads [⟨k, c, 1, b.setWidth 64⟩]).setUnit k
        { u with acc := (byteFold (u.acc.setWidth 32) b).setWidth 64, q := ⟨.byte, c + 1, r⟩ :: rest })

/-- 10_state.md R36, 20_memory.md R52: a step in a WORD phase reads the 8 bytes from the cursor on as one little-endian
word, folds it into the low half of ACC, advances the cursor by 8 and records the read. Byte j of the word is the one
in memory unless the host stored to it while the command was in progress, where it is a free value (the model's
choice, log entry 5). -/
def Obligations.SequencerFoldsOneWord : Prop :=
  ∀ (s : State) (k : Nat) (u : HzcUnit) (c : Word64) (r : Nat) (rest : List Phase),
    s.units[k]? = some u → u.busy = true → u.q = ⟨.word, c, r + 1⟩ :: rest →
    (∀ j, j < 8 → readableAt s.platform (c + BitVec.ofNat 64 j) = true) →
    ∃ w : Word64,
      (∀ j, j < 8 → c + BitVec.ofNat 64 j ∉ u.raced →
        w.extractLsb' (8 * j) 8 = Memory.read s.mem (c + BitVec.ofNat 64 j).toNat) ∧
      s.seqStep k = .next ((s.addReads [⟨k, c, 8, w⟩]).setUnit k
        { u with acc := (wordFold (u.acc.setWidth 32) w).setWidth 64, q := ⟨.word, c + 8, r⟩ :: rest })

/-- 10_state.md R36, 60_exceptions.md R196: a phase with nothing left is dropped with no read and no change of ACC, and
an idle instance's sequencer changes nothing. With no phase left the step is the completion of the latched command:
BUSY falls, DONE rises, and RESULT, PLEAD, PWORDS and PTRAIL take what the command's rule gives from the latches and
ACC, whatever the rest of the instance holds (40_probe.md R100, 41_byte_accumulator.md R113, R114,
42_word_accumulator.md R133, R134, 43_driver.md R155, R156, R159). -/
def Obligations.SequencerDropsEmptyPhasesAndIdles : Prop :=
  ∀ (s : State) (k : Nat) (u : HzcUnit), s.units[k]? = some u →
    (u.busy = false → s.seqStep k = .next s) ∧
    (∀ f rest, u.busy = true → u.q = f :: rest → f.remaining = 0 →
      s.seqStep k = .next (s.setUnit k { u with q := rest })) ∧
    ∀ t, u.busy = true → u.q = [] → t = partition u.lAddr u.lLen.toNat →
      (u.lOp = 1 → s.seqStep k = .next (s.setUnit k { u with
        busy := false, done := true, result := if s.platform.featWord.getLsbD 20 then 1 else 0 })) ∧
      (u.lOp = 2 → s.seqStep k = .next (s.setUnit k { u with
        busy := false, done := true
        result := (byteFold (u.lSeed.setWidth 32) (u.lData.setWidth 8)).setWidth 64 })) ∧
      (u.lOp = 3 → s.seqStep k = .next (s.setUnit k { u with
        busy := false, done := true, result := (wordFold (u.lSeed.setWidth 32) u.lData).setWidth 64 })) ∧
      (u.lOp = 4 → s.seqStep k = .next (s.setUnit k { u with
        busy := false, done := true, result := (u.acc.setWidth 32).setWidth 64 })) ∧
      (u.lOp = 5 → s.seqStep k = .next (s.setUnit k { u with busy := false, done := true, result := u.acc })) ∧
      (u.lOp = 6 → s.seqStep k = .next (s.setUnit k { u with
        busy := false, done := true, result := (u.acc.setWidth 32).setWidth 64
        plead := BitVec.ofNat 32 t.lead, pwords := BitVec.ofNat 32 t.words, ptrail := BitVec.ofNat 32 t.trail })) ∧
      (u.lOp = 7 → s.seqStep k = .next (s.setUnit k { u with
        busy := false, done := true
        plead := BitVec.ofNat 32 t.lead, pwords := BitVec.ofNat 32 t.words, ptrail := BitVec.ofNat 32 t.trail }))

/-- 10_state.md R34: no sequencer step changes an operand register, a latch or ERR of any instance, and none changes
memory, the platform, the schedule, what the host read or what it owes. -/
def Obligations.SequencerKeepsOperandsAndLatches : Prop :=
  ∀ (s t : State) (k : Nat), s.seqStep k = .next t →
    t.mem = s.mem ∧ t.platform = s.platform ∧ t.sched = s.sched ∧ t.rdata = s.rdata ∧ t.hostRace = s.hostRace ∧
    t.duty = s.duty ∧ t.sel = s.sel ∧
    t.units.length = s.units.length ∧
    ∀ (j : Nat) (u v : HzcUnit), s.units[j]? = some u → t.units[j]? = some v →
      v.seed = u.seed ∧ v.addr = u.addr ∧ v.len = u.len ∧ v.data = u.data ∧ v.err = u.err ∧ v.lOp = u.lOp ∧
      v.lSeed = u.lSeed ∧ v.lAddr = u.lAddr ∧ v.lLen = u.lLen ∧ v.lData = u.lData ∧ (j ≠ k → v = u)

/-- 10_state.md R31, R32, R39: RESULT, PLEAD, PWORDS and PTRAIL of an instance change in a step only at a completion
(BUSY, no phase left, DONE rises), PLEAD, PWORDS and PTRAIL only at that of PART or CSUM, RESULT not at that of PART;
or the instance is reset. -/
def Obligations.ResultsChangeOnlyAtCompletion : Prop :=
  ∀ (s t : State) (k : Nat) (u v : HzcUnit), step s = .next t → s.units[k]? = some u → t.units[k]? = some v →
    v = HzcUnit.reset ∨
    ((v.result = u.result ∨ (u.busy = true ∧ u.q = [] ∧ v.done = true ∧ v.busy = false ∧ u.lOp ≠ 7)) ∧
     ((v.plead = u.plead ∧ v.pwords = u.pwords ∧ v.ptrail = u.ptrail) ∨
       (u.busy = true ∧ u.q = [] ∧ v.done = true ∧ v.busy = false ∧ (u.lOp = 6 ∨ u.lOp = 7))))

/-- 70_reset_and_hazards.md R213: in every state that meets the invariant, a command in progress completes if its
sequencer keeps stepping: after one step for each unit left, one for each phase, and one more. -/
def Obligations.CommandsInProgressComplete : Prop :=
  ∀ (s : State) (k : Nat) (u : HzcUnit), s.Inv → s.units[k]? = some u → u.busy = true →
    ∃ t v, State.seqRun k ((u.q.map Phase.remaining).sum + u.q.length + 1) s = .next t ∧ t.units[k]? = some v ∧
      v.busy = false ∧ v.done = true ∧ v.err = .none

/-! ## Reset and the fault state -/

/-- 70_reset_and_hazards.md R201, R202: the reset input gives every register of the instance its reset value, also
while a command is in progress or ERR is set, and touches nothing else. -/
def Obligations.ResetInputRestoresEveryRegister : Prop :=
  ∀ (s : State) (k : Nat) (u : HzcUnit) (rest : List Event), s.sched = .resetInput k :: rest → s.units[k]? = some u →
    step s = .next (State.setUnit { s with sched := rest } k
      { busy := false, done := false, err := .none, seed := 0, addr := 0, len := 0, data := 0, result := 0
        plead := 0, pwords := 0, ptrail := 0, acc := 0
        lOp := 0, lSeed := 0, lAddr := 0, lLen := 0, lData := 0, q := [], raced := [] })

/-- 10_state.md R26: a write of CTRL with SRST = 1, of 4 or 8 bytes, resets the instance at any time, whatever its
other bits; with SRST = 0 it changes nothing. -/
def Obligations.CtrlWriteResetsOnSrst : Prop :=
  ∀ (s : State) (k : Nat) (u : HzcUnit) (size : Nat) (value : Word64) (rest : List Event),
    s.sched = .access k ⟨.write, 0x08, size, value⟩ :: rest → size = 4 ∨ size = 8 → s.units[k]? = some u →
    step s = .next (State.setUnit { s with sched := rest, sel := k } k
      (if value.getLsbD 0 then HzcUnit.reset else u))

/-- 70_reset_and_hazards.md R202, R203: right after power-on every instance is idle and fault-free with every register
0, there is at least one instance, and STATUS reads as FEAT alone. -/
def Obligations.PowerOnStateIsTheResetState : Prop :=
  State.reset.units ≠ [] ∧
    ∀ u ∈ State.reset.units,
      u.busy = false ∧ u.done = false ∧ u.err = .none ∧ u.seed = 0 ∧ u.addr = 0 ∧ u.data = 0 ∧ u.len = 0 ∧
      u.result = 0 ∧ u.plead = 0 ∧ u.pwords = 0 ∧ u.ptrail = 0 ∧ u.acc = 0 ∧ u.lOp = 0 ∧ u.lSeed = 0 ∧ u.lAddr = 0 ∧
      u.lLen = 0 ∧ u.lData = 0 ∧ u.q = [] ∧
      u.status State.reset.platform = if capOf State.reset.platform then 0x00000100 else 0x00000000

/-- 10_state.md R38: once ERR is non-zero, a step leaves it as it is and accepts no command, unless the step's event
is a reset of that instance, by its reset input or by a write to its window. -/
def Obligations.OnlyResetLeavesTheFaultState : Prop :=
  ∀ (s t : State) (k : Nat) (u v : HzcUnit), step s = .next t → s.units[k]? = some u → t.units[k]? = some v →
    u.err ≠ .none →
    (v.err = u.err ∧ (u.busy = false → v.busy = false)) ∨
    (v = HzcUnit.reset ∧
      (s.sched.head? = some (.resetInput k) ∨
       (∃ size value, s.sched.head? = some (.access k ⟨.write, 0x08, size, value⟩) ∧ value.getLsbD 0 = true) ∨
       ∃ a size value, s.sched.head? = some (.bus a .write size value) ∧ value.getLsbD 0 = true ∧
         resolveBus s.platform a = some (k, 0x08)))

/-- 10_state.md R37: FEAT is bit 20 of FEAT_WORD, and no step, a reset included, changes it. -/
def Obligations.FeatNeverChanges : Prop :=
  (∀ (p : Platform) (u : HzcUnit), (u.status p).getLsbD 8 = p.featWord.getLsbD 20) ∧
    ∀ s t : State, step s = .next t → t.platform = s.platform

/-- 10_state.md R25: the fields of STATUS and its reserved bits, which read as zero. -/
def Obligations.StatusShowsItsFields : Prop :=
  ∀ (p : Platform) (u : HzcUnit),
    (u.status p).getLsbD 0 = u.busy ∧ (u.status p).getLsbD 1 = u.done ∧ (u.status p).extractLsb' 2 2 = 0 ∧
    (u.status p).extractLsb' 4 4 = (match u.err with
      | .none => 0 | .badop => 1 | .unsupported => 2 | .align => 3 | .range => 4 | .busy => 5) ∧
    (u.status p).getLsbD 8 = capOf p ∧ (u.status p).extractLsb' 9 23 = 0

/-! ## The buffer space, the host's stores and the other instances -/

/-- 20_memory.md R50, 70_reset_and_hazards.md R201: no step changes a byte of the buffer space but a host store, and
that store changes the byte it names alone. The premise is the canonical form of the memory list, which every step
keeps. -/
def Obligations.OnlyHostStoresChangeMemory : Prop :=
  ∀ s t : State, step s = .next t →
    ((∀ a b, s.sched.head? ≠ some (.store a b)) → t.mem = s.mem) ∧
    ∀ a b, s.sched.head? = some (.store a b) → Memory.wf s.mem = true →
      ∀ x : Word64, Memory.read t.mem x.toNat = if x = a then b else Memory.read s.mem x.toNat

/-- 20_memory.md R62, 60_exceptions.md R188, 70_reset_and_hazards.md R208: a host store is recorded as HostRace exactly
when it falls in a range the host owes (ReadRangesAreOwedUntilTheHostReadsIdle says from when to when it does), and it
changes no register of an instance, so it sets no ERR code. At an instance whose command in progress has the address in
its latched read range, that address and no other is added to those the command reads as free values (the model's
choice, log entry 5). In a state that meets the invariant every store into such a range is a HostRace. -/
def Obligations.HostStoresIntoABusyRangeAreRaces : Prop :=
  ∀ (s : State) (a : Word64) (b : Byte) (rest : List Event), s.sched = .store a b :: rest →
    ∃ t, step s = .next t ∧ t.duty = s.duty ∧ t.sched = rest ∧ t.history = s.history ∧ t.rdata = s.rdata ∧
      t.platform = s.platform ∧ t.sel = s.sel ∧ t.units.length = s.units.length ∧
      (t.hostRace = true ↔ s.hostRace = true ∨
        ∃ d ∈ s.duty, d.base.toNat ≤ a.toNat ∧ a.toNat < d.base.toNat + d.size) ∧
      (∀ (j : Nat) (u : HzcUnit), s.units[j]? = some u → t.units[j]? = some
        (if u.busy = true ∧ u.lAddr.toNat ≤ a.toNat ∧
            (u.lOp = 4 ∧ a.toNat < u.lAddr.toNat + u.lLen.toNat ∨
             u.lOp = 6 ∧ a.toNat < u.lAddr.toNat + u.lLen.toNat ∨
             u.lOp = 5 ∧ a.toNat < u.lAddr.toNat + 8 * u.lLen.toNat)
          then { u with raced := a :: u.raced } else u)) ∧
      (s.Inv → ∀ u ∈ s.units, u.busy = true → u.lAddr.toNat ≤ a.toNat →
        (u.lOp = 4 ∧ a.toNat < u.lAddr.toNat + u.lLen.toNat ∨
         u.lOp = 6 ∧ a.toNat < u.lAddr.toNat + u.lLen.toNat ∨
         u.lOp = 5 ∧ a.toNat < u.lAddr.toNat + 8 * u.lLen.toNat) → t.hostRace = true)

/-- 60_exceptions.md R188: HostRace is kept for the whole run. That a reset does not clear it is the model's reading of
"for the whole run" (log entry 5). -/
def Obligations.HostRaceIsKept : Prop :=
  ∀ s t : State, step s = .next t → s.hostRace = true → t.hostRace = true

/-- 20_memory.md R63, 60_exceptions.md R194: an event of one instance leaves every other instance as it is; and a
command, or a sequencer step, of one instance depends on no other instance's registers. -/
def Obligations.InstancesDoNotInterfere : Prop :=
  (∀ (s t : State) (k j : Nat) (e : Event), step s = .next t → s.sched.head? = some e →
    eventUnit s.platform e = some k → j ≠ k → t.units[j]? = s.units[j]?) ∧
  (∀ (s s' t : State) (k : Nat), s' = { s with units := s'.units } → s'.units[k]? = s.units[k]? →
    s.seqStep k = .next t → ∃ t', s'.seqStep k = .next t' ∧ t'.units[k]? = t.units[k]? ∧ t'.history = t.history) ∧
  ∀ (s s' t : State) (i : Instr), s' = { s with units := s'.units } → s'.units[s.sel]? = s.units[s.sel]? →
    exec i s = .next t → ∃ t', exec i s' = .next t' ∧ t'.units[s.sel]? = t.units[s.sel]?

/-! ## The register window -/

/-- 10_state.md R23, R27 to R30: 8-byte writes of SEED, ADDR and DATA and a 4-byte write of LEN set the register and
nothing else, also while a command is in progress (R34) or ERR is set (60_exceptions.md R184). -/
def Obligations.OperandWritesSetTheirRegister : Prop :=
  ∀ (s : State) (u : HzcUnit) (value : Word64), s.units[s.sel]? = some u →
    s.windowAccess ⟨.write, 0x10, 8, value⟩ = .next (s.setUnit s.sel { u with seed := value }) ∧
    s.windowAccess ⟨.write, 0x18, 8, value⟩ = .next (s.setUnit s.sel { u with addr := value }) ∧
    s.windowAccess ⟨.write, 0x28, 8, value⟩ = .next (s.setUnit s.sel { u with data := value }) ∧
    s.windowAccess ⟨.write, 0x20, 4, value⟩ = .next (s.setUnit s.sel { u with len := value.setWidth 32 }) ∧
    s.windowAccess ⟨.write, 0x20, 8, value⟩ = .next (s.setUnit s.sel { u with len := value.setWidth 32 })

/-- 10_state.md R23: a 4-byte write of a 64-bit register reaches the half at its offset and leaves the other half. -/
def Obligations.HalfWritesReachTheirHalf : Prop :=
  ∀ (s : State) (u : HzcUnit) (value : Word64), s.units[s.sel]? = some u →
    s.windowAccess ⟨.write, 0x10, 4, value⟩ =
      .next (s.setUnit s.sel { u with seed := u.seed.extractLsb' 32 32 ++ value.setWidth 32 }) ∧
    s.windowAccess ⟨.write, 0x14, 4, value⟩ =
      .next (s.setUnit s.sel { u with seed := value.setWidth 32 ++ u.seed.setWidth 32 }) ∧
    s.windowAccess ⟨.write, 0x18, 4, value⟩ =
      .next (s.setUnit s.sel { u with addr := u.addr.extractLsb' 32 32 ++ value.setWidth 32 }) ∧
    s.windowAccess ⟨.write, 0x1C, 4, value⟩ =
      .next (s.setUnit s.sel { u with addr := value.setWidth 32 ++ u.addr.setWidth 32 }) ∧
    s.windowAccess ⟨.write, 0x28, 4, value⟩ =
      .next (s.setUnit s.sel { u with data := u.data.extractLsb' 32 32 ++ value.setWidth 32 }) ∧
    s.windowAccess ⟨.write, 0x2C, 4, value⟩ =
      .next (s.setUnit s.sel { u with data := value.setWidth 32 ++ u.data.setWidth 32 })

/-- 10_state.md R22, R23: what the host gets from reads of the window, of 8 and of 4 bytes, each register and each half;
write-only CMD and CTRL read as zero, and a 4-byte value is zero-extended. -/
def Obligations.WindowReadsReturnTheRegisters : Prop :=
  ∀ (s : State) (u : HzcUnit), s.units[s.sel]? = some u →
    s.readsAs 0x10 8 u.seed ∧ s.readsAs 0x10 4 ((u.seed.setWidth 32).setWidth 64) ∧
    s.readsAs 0x14 4 ((u.seed.extractLsb' 32 32).setWidth 64) ∧
    s.readsAs 0x18 8 u.addr ∧ s.readsAs 0x18 4 ((u.addr.setWidth 32).setWidth 64) ∧
    s.readsAs 0x1C 4 ((u.addr.extractLsb' 32 32).setWidth 64) ∧
    s.readsAs 0x28 8 u.data ∧ s.readsAs 0x28 4 ((u.data.setWidth 32).setWidth 64) ∧
    s.readsAs 0x2C 4 ((u.data.extractLsb' 32 32).setWidth 64) ∧
    s.readsAs 0x30 8 u.result ∧ s.readsAs 0x30 4 ((u.result.setWidth 32).setWidth 64) ∧
    s.readsAs 0x34 4 ((u.result.extractLsb' 32 32).setWidth 64) ∧
    s.readsAs 0x20 8 (u.len.setWidth 64) ∧ s.readsAs 0x20 4 (u.len.setWidth 64) ∧
    s.readsAs 0x38 8 (u.pwords ++ u.plead) ∧ s.readsAs 0x38 4 (u.plead.setWidth 64) ∧
    s.readsAs 0x3C 4 (u.pwords.setWidth 64) ∧
    s.readsAs 0x40 8 (u.ptrail.setWidth 64) ∧ s.readsAs 0x40 4 (u.ptrail.setWidth 64) ∧
    s.readsAs 0x04 4 ((u.status s.platform).setWidth 64) ∧
    s.readsAs 0x00 8 (u.status s.platform ++ (0 : Word32)) ∧ s.readsAs 0x00 4 0 ∧
    s.readsAs 0x08 8 0 ∧ s.readsAs 0x08 4 0

/-- 10_state.md R22, R23: accesses of reserved offsets read as zero and write nothing. -/
def Obligations.ReservedOffsetsReadZeroAndIgnoreWrites : Prop :=
  ∀ (s : State) (u : HzcUnit) (off : BitVec 8) (value : Word64), s.units[s.sel]? = some u →
    off = 0x0C ∨ off = 0x24 ∨ 0x44 ≤ off.toNat →
    ∀ size, size = 4 ∨ size = 8 →
      s.windowAccess ⟨.write, off, size, value⟩ = .next s ∧
      s.windowAccess ⟨.read, off, size, value⟩ = .next { s with rdata := 0 }

/-- 10_state.md R22, R23: writes of the read-only STATUS, RESULT, PLEAD, PWORDS and PTRAIL are ignored. -/
def Obligations.ReadOnlyRegistersIgnoreWrites : Prop :=
  ∀ (s : State) (u : HzcUnit) (size : Nat) (off : BitVec 8) (value : Word64), s.units[s.sel]? = some u →
    size = 4 ∧ (off = 0x04 ∨ off = 0x30 ∨ off = 0x34 ∨ off = 0x38 ∨ off = 0x3C ∨ off = 0x40) ∨
      size = 8 ∧ (off = 0x30 ∨ off = 0x38 ∨ off = 0x40) →
    s.windowAccess ⟨.write, off, size, value⟩ = .next s

/-- 10_state.md R23: an access of another size, or misaligned, reads as zero and writes nothing, wherever it falls. An
8-byte access at an offset that is 4 modulo 8 is one of these (log entry 13). -/
def Obligations.IrregularAccessesReadZeroAndWriteNothing : Prop :=
  ∀ (s : State) (u : HzcUnit) (off : BitVec 8) (size : Nat) (value : Word64), s.units[s.sel]? = some u →
    (size ≠ 4 ∧ size ≠ 8) ∨ off.toNat % size ≠ 0 →
    s.windowAccess ⟨.write, off, size, value⟩ = .next s ∧
    s.windowAccess ⟨.read, off, size, value⟩ = .next { s with rdata := 0 }

/-- 10_state.md R23: no window read has a side effect: it returns a value to the host (`readWindow`, whose values
WindowReadsReturnTheRegisters gives) and changes no register. What the host owes (20_memory.md R62), which is no state
of HZC, ends for that instance when the read returns STATUS with BUSY = 0, and is the same otherwise. -/
def Obligations.WindowReadsHaveNoSideEffect : Prop :=
  ∀ (s : State) (u : HzcUnit) (off : BitVec 8) (size : Nat) (value : Word64), s.units[s.sel]? = some u →
    s.windowAccess ⟨.read, off, size, value⟩ = .next { s with
      rdata := u.readWindow s.platform ⟨.read, off, size, value⟩
      duty := if (off = 0x04 ∧ size = 4 ∨ off = 0x00 ∧ size = 8) ∧ u.busy = false
        then s.duty.filter fun d => d.unit != s.sel else s.duty }

/-- 30_encoding.md R76, R78, 10_state.md R22: a step whose event is an access to an instance's window is that window
access; the seed write of `chain` is an 8-byte write of SEED with the low 32 bits of the last window read of the whole
machine (that this stands for the value the chain read is the model's choice, log entry 17); and a bus access inside
the window of an instance is the access of that window at the distance from its REG_BASE. 10_state.md R36: a step whose
event is a sequencer's turn is that sequencer step; with nothing scheduled the first busy instance's sequencer steps,
and an idle machine stays as it is. That the first instance answers where two windows overlap, and
which sequencer steps when nothing is scheduled, are the model's choices (log entries 1 and 3). -/
def Obligations.BusAccessesReachTheirWindow : Prop :=
  (∀ (s : State) (k : Nat) (a : Access) (rest : List Event), s.sched = .access k a :: rest →
    step s = State.windowAccess { s with sched := rest, sel := k } a) ∧
  (∀ (s : State) (k : Nat) (rest : List Event), s.sched = .chainSeed k :: rest →
    step s = State.windowAccess { s with sched := rest, sel := k }
      ⟨.write, 0x10, 8, (s.rdata.setWidth 32).setWidth 64⟩) ∧
  (∀ (s : State) (k : Nat) (rest : List Event), s.sched = .tick k :: rest →
    step s = State.seqStep { s with sched := rest } k) ∧
  (∀ (s : State) (k : Nat) (u : HzcUnit), s.sched = [] → s.units[k]? = some u → u.busy = true →
    (∀ j v, j < k → s.units[j]? = some v → v.busy = false) → step s = s.seqStep k) ∧
  (∀ s : State, s.sched = [] → (∀ u ∈ s.units, u.busy = false) → step s = .next s) ∧
  ∀ (s : State) (a base : Word64) (dir : Dir) (size : Nat) (value : Word64) (rest : List Event) (k : Nat),
    s.sched = .bus a dir size value :: rest → s.platform.regBase[k]? = some base → (a - base).toNat < 256 →
    (∀ j b, j < k → s.platform.regBase[j]? = some b → 256 ≤ (a - b).toNat) →
    step s = step { s with sched := .access k ⟨dir, (a - base).setWidth 8, size, value⟩ :: rest }

/-- 30_encoding.md R77: `wait` reads STATUS; with BUSY = 0 it ends there, and with it what the host
owes that instance (20_memory.md R62); with BUSY = 1 it reads again later. The
sequencer step before the next read is the model's reading of weak fairness (log entry 3). -/
def Obligations.WaitEndsWhenBusyFalls : Prop :=
  ∀ (s : State) (k : Nat) (u : HzcUnit) (rest : List Event), s.sched = .wait k :: rest → s.units[k]? = some u →
    step s = .next { s with
      sel := k
      rdata := (u.status s.platform).setWidth 64
      sched := if u.busy then .tick k :: .wait k :: rest else rest
      duty := if u.busy then s.duty else s.duty.filter fun d => d.unit != k }

/-! ## The invariant -/

/-- The state at power-on meets the invariant. -/
def Obligations.ResetMeetsTheInvariant : Prop := State.reset.Inv

/-- Every step from a state that meets the invariant gives a state that meets it: BUSY and DONE never both, no fault
state with a command in progress, at most three phases in address order inside the admitted range, aligned word reads
only, the host owing the read range of every command in progress, PLEAD, PWORDS and PTRAIL in their bounds, memory in canonical form. -/
def Obligations.StepKeepsTheInvariant : Prop :=
  ∀ s t : State, s.Inv → step s = .next t → t.Inv

/-- 60_exceptions.md R187: no fault can arise in a sequencer step: in a state that meets the invariant the step of
every instance answers a next state, and it leaves ERR of every instance as it is. -/
def Obligations.SequencerStepsNeverFault : Prop :=
  ∀ (s : State) (k : Nat) (u : HzcUnit), s.Inv → s.units[k]? = some u →
    ∃ t, s.seqStep k = .next t ∧
      ∀ (j : Nat) (v w : HzcUnit), s.units[j]? = some v → t.units[j]? = some w → w.err = v.err

/-- In a state that meets the invariant, a step stops only for an event that names no instance or no window: an
instance the platform does not have, or a bus address outside every window. These two stops are the model's own (log
entries 9 and 10). -/
def Obligations.StepsStopOnlyOnForeignEvents : Prop :=
  ∀ s : State, s.Inv →
    (∃ t, step s = .next t) ∨
    (step s = .fault .noSuchUnit ∧
      ∃ e k, s.sched.head? = some e ∧ eventUnit s.platform e = some k ∧ s.units.length ≤ k) ∨
    (step s = .refused .outsideWindows ∧
      ∃ a dir size value, s.sched.head? = some (.bus a dir size value) ∧
        ∀ base ∈ s.platform.regBase, 256 ≤ (a - base).toNat)

/-! ## What the host owes -/

/-- 20_memory.md R62, 70_reset_and_hazards.md R208: a range the host owes is owed, through completion, abort and
reset, until a step in which the host reads STATUS of that instance with BUSY = 0 (a 4-byte read at 0x04, an 8-byte
read at 0x00, or a pass of `wait`); and a range comes to be owed only in a step that accepts a command, and is that
command's read range. That a reset does not end it is the model's reading of R62 (log entry 5). -/
def Obligations.ReadRangesAreOwedUntilTheHostReadsIdle : Prop :=
  ∀ (s t : State) (d : Duty), step s = .next t →
    (d ∈ s.duty → d ∈ t.duty ∨
      ∃ u, s.units[d.unit]? = some u ∧ u.busy = false ∧
        (s.sched.head? = some (.wait d.unit) ∨
         ∃ off size value, (off = 0x04 ∧ size = 4 ∨ off = 0x00 ∧ size = 8) ∧
          (s.sched.head? = some (.access d.unit ⟨.read, off, size, value⟩) ∨
           ∃ a, s.sched.head? = some (.bus a .read size value) ∧ resolveBus s.platform a = some (d.unit, off)))) ∧
    (d ∈ t.duty → d ∈ s.duty ∨
      ∃ u v, s.units[d.unit]? = some u ∧ t.units[d.unit]? = some v ∧ u.err = .none ∧ u.busy = false ∧
        v.busy = true ∧ d.base = u.addr ∧ d.base = v.lAddr ∧ d.size = v.extent)
end

