-- ==== Sys2Proof/Laws/Memory.lean ====
section
/-! SUPPORT. The laws of the buffer space: stores keep the canonical form, a read after a store gives the byte
stored, and every other byte is left alone. -/

namespace Sys2Proof.Machine

theorem Memory.wfFrom_cons {lo k : Nat} {v : Byte} {t : List Host.Cell} :
    Memory.wfFrom lo ((k, v) :: t) = true ↔
      lo ≤ k ∧ k < 2 ^ 64 ∧ v ≠ Memory.unlisted ∧ Memory.wfFrom (k + 1) t = true := by
  simp [Memory.wfFrom, and_assoc]

/-- Canonical from `hi` on is canonical from any lower address on. -/
theorem Memory.wfFrom_mono {lo hi : Nat} {m : List Host.Cell} (h : lo ≤ hi) (w : Memory.wfFrom hi m = true) :
    Memory.wfFrom lo m = true := by
  cases m with
  | nil => rfl
  | cons c t =>
    obtain ⟨h1, h2⟩ := Memory.wfFrom_cons.mp w
    exact Memory.wfFrom_cons.mpr ⟨h.trans h1, h2⟩

/-- A canonical list reads as unlisted below its first address. -/
theorem Memory.read_below {lo a : Nat} {m : List Host.Cell} (h : a < lo) (w : Memory.wfFrom lo m = true) :
    Memory.read m a = Memory.unlisted := by
  induction m generalizing lo with
  | nil => rfl
  | cons c t ih =>
    obtain ⟨h1, -, -, h4⟩ := Memory.wfFrom_cons.mp w
    rw [Memory.read, if_neg (by omega), ih (by omega) h4]

/-- A store keeps the canonical form. -/
theorem Memory.write_wfFrom {lo a : Nat} {m : List Host.Cell} (b : Byte) (hlo : lo ≤ a) (ha : a < 2 ^ 64)
    (w : Memory.wfFrom lo m = true) : Memory.wfFrom lo (Memory.write m a b) = true := by
  induction m generalizing lo with
  | nil =>
    rw [Memory.write]
    split
    · rfl
    · next hb => exact Memory.wfFrom_cons.mpr ⟨hlo, ha, hb, rfl⟩
  | cons c t ih =>
    obtain ⟨k, v⟩ := c
    obtain ⟨h1, h2, h3, h4⟩ := Memory.wfFrom_cons.mp w
    rw [Memory.write]
    split_ifs with hk hb hb' hb''
    · exact w
    · exact Memory.wfFrom_cons.mpr ⟨hlo, ha, hb, Memory.wfFrom_cons.mpr ⟨hk, h2, h3, h4⟩⟩
    · exact Memory.wfFrom_mono (by omega) h4
    · exact Memory.wfFrom_cons.mpr ⟨hlo, ha, hb'', hb' ▸ h4⟩
    · exact Memory.wfFrom_cons.mpr ⟨h1, h2, h3, ih (by omega) h4⟩

/-- A store to an address of the buffer space keeps the canonical form. -/
theorem Memory.write_wf {a : Nat} {m : List Host.Cell} (b : Byte) (ha : a < 2 ^ 64) (w : Memory.wf m = true) :
    Memory.wf (Memory.write m a b) = true :=
  Memory.write_wfFrom b (Nat.zero_le a) ha w

/-- A read of the address stored to gives the byte stored. -/
theorem Memory.read_write_same {lo a : Nat} {m : List Host.Cell} (b : Byte) (w : Memory.wfFrom lo m = true) :
    Memory.read (Memory.write m a b) a = b := by
  induction m generalizing lo with
  | nil =>
    rw [Memory.write]
    split
    · next hb => rw [hb]; rfl
    · rw [Memory.read, if_pos rfl]
  | cons c t ih =>
    obtain ⟨k, v⟩ := c
    obtain ⟨-, -, -, h4⟩ := Memory.wfFrom_cons.mp w
    rw [Memory.write]
    split_ifs with hk hb hb' hb''
    · rw [Memory.read, if_neg (by omega), Memory.read_below (lo := k + 1) (by omega) h4, hb]
    · rw [Memory.read, if_pos rfl]
    · rw [Memory.read_below (lo := k + 1) (by omega) h4, hb'']
    · rw [Memory.read, if_pos rfl]
    · rw [Memory.read, if_neg (by omega), ih h4]

/-- Every other address reads as before. -/
theorem Memory.read_write_other {a x : Nat} (m : List Host.Cell) (b : Byte) (h : x ≠ a) :
    Memory.read (Memory.write m a b) x = Memory.read m x := by
  have ha : ¬a = x := Ne.symm h
  induction m with
  | nil =>
    rw [Memory.write]
    split <;> simp [Memory.read, ha]
  | cons c t ih =>
    obtain ⟨k, v⟩ := c
    rw [Memory.write]
    split_ifs with hk hb hb' hb''
    · rfl
    · simp [Memory.read, ha]
    · simp [Memory.read, ← hb', ha]
    · simp [Memory.read, ← hb', ha]
    · simp [Memory.read, ih]

/-- The memory at power-on is canonical. -/
theorem Memory.reset_wf : Memory.wf State.reset.mem = true := rfl

end Sys2Proof.Machine
end

