-- ==== Sys2Proof/Laws/State.lean ====
section
/-! SUPPORT. One lemma per field per update of the state, true by rfl, so that no proof unfolds a record update;
and what putting an instance back under its number does. -/

namespace Sys2Proof.Machine

section StateFields
variable (s : State) (k : Nat) (u : HzcUnit) (e : ReadEvent)

@[simp] theorem State.setUnit_platform : (s.setUnit k u).platform = s.platform := rfl
@[simp] theorem State.setUnit_units : (s.setUnit k u).units = s.units.set k u := rfl
@[simp] theorem State.setUnit_mem : (s.setUnit k u).mem = s.mem := rfl
@[simp] theorem State.setUnit_history : (s.setUnit k u).history = s.history := rfl
@[simp] theorem State.setUnit_hostRace : (s.setUnit k u).hostRace = s.hostRace := rfl
@[simp] theorem State.setUnit_duty : (s.setUnit k u).duty = s.duty := rfl
@[simp] theorem State.setUnit_rdata : (s.setUnit k u).rdata = s.rdata := rfl
@[simp] theorem State.setUnit_sched : (s.setUnit k u).sched = s.sched := rfl
@[simp] theorem State.setUnit_sel : (s.setUnit k u).sel = s.sel := rfl
@[simp] theorem State.record_platform : (s.record e).platform = s.platform := rfl
@[simp] theorem State.record_units : (s.record e).units = s.units := rfl
@[simp] theorem State.record_mem : (s.record e).mem = s.mem := rfl
@[simp] theorem State.record_history : (s.record e).history = e :: s.history := rfl
@[simp] theorem State.record_hostRace : (s.record e).hostRace = s.hostRace := rfl
@[simp] theorem State.record_duty : (s.record e).duty = s.duty := rfl
@[simp] theorem State.record_rdata : (s.record e).rdata = s.rdata := rfl
@[simp] theorem State.record_sched : (s.record e).sched = s.sched := rfl
@[simp] theorem State.record_sel : (s.record e).sel = s.sel := rfl

end StateFields

section DutyFields
variable (s : State) (k n : Nat) (a : Word64) (u : HzcUnit)

@[simp] theorem State.endDuty_platform : (s.endDuty k).platform = s.platform := rfl
@[simp] theorem State.endDuty_units : (s.endDuty k).units = s.units := rfl
@[simp] theorem State.endDuty_mem : (s.endDuty k).mem = s.mem := rfl
@[simp] theorem State.endDuty_history : (s.endDuty k).history = s.history := rfl
@[simp] theorem State.endDuty_hostRace : (s.endDuty k).hostRace = s.hostRace := rfl
@[simp] theorem State.endDuty_rdata : (s.endDuty k).rdata = s.rdata := rfl
@[simp] theorem State.endDuty_sched : (s.endDuty k).sched = s.sched := rfl
@[simp] theorem State.endDuty_sel : (s.endDuty k).sel = s.sel := rfl
@[simp] theorem State.endDuty_duty : (s.endDuty k).duty = s.duty.filter fun d => d.unit != k := rfl
@[simp] theorem State.addDuty_platform : (s.addDuty k a n).platform = s.platform := by unfold State.addDuty; split <;> rfl
@[simp] theorem State.addDuty_units : (s.addDuty k a n).units = s.units := by unfold State.addDuty; split <;> rfl
@[simp] theorem State.addDuty_mem : (s.addDuty k a n).mem = s.mem := by unfold State.addDuty; split <;> rfl
@[simp] theorem State.addDuty_history : (s.addDuty k a n).history = s.history := by unfold State.addDuty; split <;> rfl
@[simp] theorem State.addDuty_hostRace : (s.addDuty k a n).hostRace = s.hostRace := by unfold State.addDuty; split <;> rfl
@[simp] theorem State.addDuty_rdata : (s.addDuty k a n).rdata = s.rdata := by unfold State.addDuty; split <;> rfl
@[simp] theorem State.addDuty_sched : (s.addDuty k a n).sched = s.sched := by unfold State.addDuty; split <;> rfl
@[simp] theorem State.addDuty_sel : (s.addDuty k a n).sel = s.sel := by unfold State.addDuty; split <;> rfl

/-- A range of no bytes is no duty. -/
@[simp] theorem State.addDuty_zero : s.addDuty k a 0 = s := rfl

/-- Owing a range and putting an instance back do not depend on their order. -/
@[simp] theorem State.setUnit_addDuty (j : Nat) : (s.setUnit j u).addDuty k a n = (s.addDuty k a n).setUnit j u := by
  unfold State.addDuty
  split <;> rfl

/-- Owing a range and recording a read do not depend on their order. -/
theorem State.record_addDuty (e : ReadEvent) : (s.addDuty k a n).record e = (s.record e).addDuty k a n := by
  unfold State.addDuty
  split <;> rfl

end DutyFields

/-- Everything a new duty can be: the range just owed, where it has bytes, or one that was there. -/
theorem State.mem_addDuty {s : State} {k n : Nat} {a : Word64} {d : Duty} :
    d ∈ (s.addDuty k a n).duty ↔ (n ≠ 0 ∧ d = ⟨k, a, n⟩) ∨ d ∈ s.duty := by
  unfold State.addDuty
  split
  · next h => simp [h]
  · next h => simp [h]

/-- What is still owed after the host has read BUSY = 0 at one instance: what it owes the others. -/
theorem State.mem_endDuty {s : State} {k : Nat} {d : Duty} : d ∈ (s.endDuty k).duty ↔ d ∈ s.duty ∧ d.unit ≠ k := by
  simp

section UnitFields
variable (u : HzcUnit) (e : ErrCode) (op : BitVec 4) (acc r : Word64) (q : List Phase) (t : Split)

@[simp] theorem HzcUnit.raise_busy : (u.raise e).busy = false := rfl
@[simp] theorem HzcUnit.raise_done : (u.raise e).done = false := rfl
@[simp] theorem HzcUnit.raise_err : (u.raise e).err = e := rfl
@[simp] theorem HzcUnit.raise_seed : (u.raise e).seed = u.seed := rfl
@[simp] theorem HzcUnit.raise_addr : (u.raise e).addr = u.addr := rfl
@[simp] theorem HzcUnit.raise_len : (u.raise e).len = u.len := rfl
@[simp] theorem HzcUnit.raise_data : (u.raise e).data = u.data := rfl
@[simp] theorem HzcUnit.raise_result : (u.raise e).result = u.result := rfl
@[simp] theorem HzcUnit.raise_plead : (u.raise e).plead = u.plead := rfl
@[simp] theorem HzcUnit.raise_pwords : (u.raise e).pwords = u.pwords := rfl
@[simp] theorem HzcUnit.raise_ptrail : (u.raise e).ptrail = u.ptrail := rfl
@[simp] theorem HzcUnit.raise_acc : (u.raise e).acc = u.acc := rfl
@[simp] theorem HzcUnit.raise_lOp : (u.raise e).lOp = u.lOp := rfl
@[simp] theorem HzcUnit.raise_lSeed : (u.raise e).lSeed = u.lSeed := rfl
@[simp] theorem HzcUnit.raise_lAddr : (u.raise e).lAddr = u.lAddr := rfl
@[simp] theorem HzcUnit.raise_lLen : (u.raise e).lLen = u.lLen := rfl
@[simp] theorem HzcUnit.raise_lData : (u.raise e).lData = u.lData := rfl
@[simp] theorem HzcUnit.raise_q : (u.raise e).q = [] := rfl
@[simp] theorem HzcUnit.raise_raced : (u.raise e).raced = u.raced := rfl
@[simp] theorem HzcUnit.issue_busy : (u.issue op acc q).busy = true := rfl
@[simp] theorem HzcUnit.issue_done : (u.issue op acc q).done = false := rfl
@[simp] theorem HzcUnit.issue_err : (u.issue op acc q).err = u.err := rfl
@[simp] theorem HzcUnit.issue_seed : (u.issue op acc q).seed = u.seed := rfl
@[simp] theorem HzcUnit.issue_addr : (u.issue op acc q).addr = u.addr := rfl
@[simp] theorem HzcUnit.issue_len : (u.issue op acc q).len = u.len := rfl
@[simp] theorem HzcUnit.issue_data : (u.issue op acc q).data = u.data := rfl
@[simp] theorem HzcUnit.issue_result : (u.issue op acc q).result = u.result := rfl
@[simp] theorem HzcUnit.issue_plead : (u.issue op acc q).plead = u.plead := rfl
@[simp] theorem HzcUnit.issue_pwords : (u.issue op acc q).pwords = u.pwords := rfl
@[simp] theorem HzcUnit.issue_ptrail : (u.issue op acc q).ptrail = u.ptrail := rfl
@[simp] theorem HzcUnit.issue_acc : (u.issue op acc q).acc = acc := rfl
@[simp] theorem HzcUnit.issue_lOp : (u.issue op acc q).lOp = op := rfl
@[simp] theorem HzcUnit.issue_lSeed : (u.issue op acc q).lSeed = u.seed := rfl
@[simp] theorem HzcUnit.issue_lAddr : (u.issue op acc q).lAddr = u.addr := rfl
@[simp] theorem HzcUnit.issue_lLen : (u.issue op acc q).lLen = u.len := rfl
@[simp] theorem HzcUnit.issue_lData : (u.issue op acc q).lData = u.data := rfl
@[simp] theorem HzcUnit.issue_q : (u.issue op acc q).q = q := rfl
@[simp] theorem HzcUnit.issue_raced : (u.issue op acc q).raced = [] := rfl
@[simp] theorem HzcUnit.finish_busy : (u.finish).busy = false := rfl
@[simp] theorem HzcUnit.finish_done : (u.finish).done = true := rfl
@[simp] theorem HzcUnit.finish_err : (u.finish).err = u.err := rfl
@[simp] theorem HzcUnit.finish_seed : (u.finish).seed = u.seed := rfl
@[simp] theorem HzcUnit.finish_addr : (u.finish).addr = u.addr := rfl
@[simp] theorem HzcUnit.finish_len : (u.finish).len = u.len := rfl
@[simp] theorem HzcUnit.finish_data : (u.finish).data = u.data := rfl
@[simp] theorem HzcUnit.finish_result : (u.finish).result = u.result := rfl
@[simp] theorem HzcUnit.finish_plead : (u.finish).plead = u.plead := rfl
@[simp] theorem HzcUnit.finish_pwords : (u.finish).pwords = u.pwords := rfl
@[simp] theorem HzcUnit.finish_ptrail : (u.finish).ptrail = u.ptrail := rfl
@[simp] theorem HzcUnit.finish_acc : (u.finish).acc = u.acc := rfl
@[simp] theorem HzcUnit.finish_lOp : (u.finish).lOp = u.lOp := rfl
@[simp] theorem HzcUnit.finish_lSeed : (u.finish).lSeed = u.lSeed := rfl
@[simp] theorem HzcUnit.finish_lAddr : (u.finish).lAddr = u.lAddr := rfl
@[simp] theorem HzcUnit.finish_lLen : (u.finish).lLen = u.lLen := rfl
@[simp] theorem HzcUnit.finish_lData : (u.finish).lData = u.lData := rfl
@[simp] theorem HzcUnit.finish_q : (u.finish).q = u.q := rfl
@[simp] theorem HzcUnit.finish_raced : (u.finish).raced = u.raced := rfl
@[simp] theorem HzcUnit.completeResult_busy : (u.completeResult r).busy = false := rfl
@[simp] theorem HzcUnit.completeResult_done : (u.completeResult r).done = true := rfl
@[simp] theorem HzcUnit.completeResult_err : (u.completeResult r).err = u.err := rfl
@[simp] theorem HzcUnit.completeResult_seed : (u.completeResult r).seed = u.seed := rfl
@[simp] theorem HzcUnit.completeResult_addr : (u.completeResult r).addr = u.addr := rfl
@[simp] theorem HzcUnit.completeResult_len : (u.completeResult r).len = u.len := rfl
@[simp] theorem HzcUnit.completeResult_data : (u.completeResult r).data = u.data := rfl
@[simp] theorem HzcUnit.completeResult_result : (u.completeResult r).result = r := rfl
@[simp] theorem HzcUnit.completeResult_plead : (u.completeResult r).plead = u.plead := rfl
@[simp] theorem HzcUnit.completeResult_pwords : (u.completeResult r).pwords = u.pwords := rfl
@[simp] theorem HzcUnit.completeResult_ptrail : (u.completeResult r).ptrail = u.ptrail := rfl
@[simp] theorem HzcUnit.completeResult_acc : (u.completeResult r).acc = u.acc := rfl
@[simp] theorem HzcUnit.completeResult_lOp : (u.completeResult r).lOp = u.lOp := rfl
@[simp] theorem HzcUnit.completeResult_lSeed : (u.completeResult r).lSeed = u.lSeed := rfl
@[simp] theorem HzcUnit.completeResult_lAddr : (u.completeResult r).lAddr = u.lAddr := rfl
@[simp] theorem HzcUnit.completeResult_lLen : (u.completeResult r).lLen = u.lLen := rfl
@[simp] theorem HzcUnit.completeResult_lData : (u.completeResult r).lData = u.lData := rfl
@[simp] theorem HzcUnit.completeResult_q : (u.completeResult r).q = u.q := rfl
@[simp] theorem HzcUnit.completeResult_raced : (u.completeResult r).raced = u.raced := rfl
@[simp] theorem HzcUnit.writeSplit_busy : (u.writeSplit t).busy = u.busy := rfl
@[simp] theorem HzcUnit.writeSplit_done : (u.writeSplit t).done = u.done := rfl
@[simp] theorem HzcUnit.writeSplit_err : (u.writeSplit t).err = u.err := rfl
@[simp] theorem HzcUnit.writeSplit_seed : (u.writeSplit t).seed = u.seed := rfl
@[simp] theorem HzcUnit.writeSplit_addr : (u.writeSplit t).addr = u.addr := rfl
@[simp] theorem HzcUnit.writeSplit_len : (u.writeSplit t).len = u.len := rfl
@[simp] theorem HzcUnit.writeSplit_data : (u.writeSplit t).data = u.data := rfl
@[simp] theorem HzcUnit.writeSplit_result : (u.writeSplit t).result = u.result := rfl
@[simp] theorem HzcUnit.writeSplit_plead : (u.writeSplit t).plead = BitVec.ofNat 32 t.lead := rfl
@[simp] theorem HzcUnit.writeSplit_pwords : (u.writeSplit t).pwords = BitVec.ofNat 32 t.words := rfl
@[simp] theorem HzcUnit.writeSplit_ptrail : (u.writeSplit t).ptrail = BitVec.ofNat 32 t.trail := rfl
@[simp] theorem HzcUnit.writeSplit_acc : (u.writeSplit t).acc = u.acc := rfl
@[simp] theorem HzcUnit.writeSplit_lOp : (u.writeSplit t).lOp = u.lOp := rfl
@[simp] theorem HzcUnit.writeSplit_lSeed : (u.writeSplit t).lSeed = u.lSeed := rfl
@[simp] theorem HzcUnit.writeSplit_lAddr : (u.writeSplit t).lAddr = u.lAddr := rfl
@[simp] theorem HzcUnit.writeSplit_lLen : (u.writeSplit t).lLen = u.lLen := rfl
@[simp] theorem HzcUnit.writeSplit_lData : (u.writeSplit t).lData = u.lData := rfl
@[simp] theorem HzcUnit.writeSplit_q : (u.writeSplit t).q = u.q := rfl
@[simp] theorem HzcUnit.writeSplit_raced : (u.writeSplit t).raced = u.raced := rfl

@[simp] theorem HzcUnit.softReset_eq : u.softReset = HzcUnit.reset := rfl

end UnitFields

/-- An instance is found under the number it was put back under. -/
@[simp] theorem State.setUnit_get_self {s : State} {k : Nat} {v : HzcUnit} (h : s.units[k]? = some v) (u : HzcUnit) :
    (s.setUnit k u).units[k]? = some u := by
  obtain ⟨hk, -⟩ := List.getElem?_eq_some_iff.mp h
  simp [hk]

/-- Every other instance is as it was. -/
theorem State.setUnit_get_other {j k : Nat} (s : State) (u : HzcUnit) (h : j ≠ k) :
    (s.setUnit k u).units[j]? = s.units[j]? := by
  simp [List.getElem?_set_ne (Ne.symm h)]

/-- Putting back what is there changes nothing. -/
theorem State.setUnit_same {s : State} {k : Nat} {u : HzcUnit} (h : s.units[k]? = some u) : s.setUnit k u = s := by
  obtain ⟨hk, rfl⟩ := List.getElem?_eq_some_iff.mp h
  simp [State.setUnit]

/-- The later of two writes under one number stays. -/
@[simp] theorem State.setUnit_setUnit (s : State) (k : Nat) (u v : HzcUnit) : (s.setUnit k u).setUnit k v = s.setUnit k v := by
  simp [State.setUnit]

/-- Recording a read and putting an instance back do not depend on their order. -/
theorem State.record_setUnit (s : State) (k : Nat) (u : HzcUnit) (e : ReadEvent) :
    (s.setUnit k u).record e = (s.record e).setUnit k u := rfl

/-- An instance after a put-back is the new one or one that was there. -/
theorem State.mem_setUnit {s : State} {k : Nat} {u v : HzcUnit} (h : v ∈ (s.setUnit k u).units) : v = u ∨ v ∈ s.units :=
  (List.mem_or_eq_of_mem_set h).symm

end Sys2Proof.Machine
end

