-- ==== Sys2Proof/Laws/Ops.lean ====
section
/-! SUPPORT. What the shared operations can do, once each: range admission, a change of one instance, the CMD
write, and `exec` as a CMD write with a check and a start. -/

namespace Sys2Proof.Machine

theorem regionHolds_iff {r : Region} {x : Nat} : regionHolds r x = true ↔ r.base ≤ x ∧ x < r.base + r.size := by
  simp [regionHolds]

/-- `covered` says that every address of the range is in some region. -/
theorem covered_iff {rs : List Region} {lo hi : Nat} :
    covered rs lo hi = true ↔ ∀ x, lo ≤ x → x < hi → ∃ r ∈ rs, regionHolds r x = true := by
  induction rs generalizing lo hi with
  | nil =>
    rw [covered, decide_eq_true_iff]
    refine ⟨fun h x _ _ => by omega, fun h => ?_⟩
    by_contra hlt
    obtain ⟨r, hr, -⟩ := h lo le_rfl (by omega)
    exact absurd hr (List.not_mem_nil)
  | cons r rs ih =>
    rw [covered, Bool.or_eq_true, decide_eq_true_iff, Bool.and_eq_true, ih, ih]
    constructor
    · rintro (h | ⟨h1, h2⟩) x hx hx'
      · omega
      · by_cases hr : regionHolds r x = true
        · exact ⟨r, List.mem_cons_self, hr⟩
        · rw [regionHolds_iff] at hr
          have : x < r.base ∨ r.base + r.size ≤ x := by omega
          rcases this with hb | hb
          · obtain ⟨q, hq, hq'⟩ := h1 x hx (lt_min hx' hb)
            exact ⟨q, List.mem_cons_of_mem _ hq, hq'⟩
          · obtain ⟨q, hq, hq'⟩ := h2 x (max_le hx hb) hx'
            exact ⟨q, List.mem_cons_of_mem _ hq, hq'⟩
    · intro h
      refine Or.inr ⟨fun x hx hx' => ?_, fun x hx hx' => ?_⟩
      · obtain ⟨q, hq, hq'⟩ := h x hx (hx'.trans_le (min_le_left _ _))
        rcases List.mem_cons.mp hq with rfl | hq
        · have := (regionHolds_iff.mp hq').1
          have := hx'.trans_le (min_le_right _ _)
          omega
        · exact ⟨q, hq, hq'⟩
      · obtain ⟨q, hq, hq'⟩ := h x ((le_max_left _ _).trans hx) hx'
        rcases List.mem_cons.mp hq with rfl | hq
        · have := (regionHolds_iff.mp hq').2
          have := (le_max_right _ _).trans hx
          omega
        · exact ⟨q, hq, hq'⟩

theorem readableAt_iff {p : Platform} {a : Word64} :
    readableAt p a = true ↔ ∃ r ∈ p.readable, regionHolds r a.toNat = true := by
  simp [readableAt]

/-- A range of no bytes is in range, wherever it starts. -/
theorem inRange_zero (p : Platform) (a : Word64) : inRange p a 0 = true := by
  have h : covered p.readable a.toNat (a.toNat + 0) = true :=
    covered_iff.mpr fun x h1 h2 => absurd h2 (by omega)
  rw [inRange, h, Bool.and_true, decide_eq_true_iff]
  exact a.isLt.le

/-- What a change of one instance answers. -/
theorem State.onUnit_some {s : State} {k : Nat} {u : HzcUnit} (h : s.units[k]? = some u) (f : HzcUnit → HzcUnit) :
    s.onUnit k f = .next (s.setUnit k (f u)) := by
  simp [State.onUnit, h]

/-- Everything a change of one instance can do when it answers a next state. -/
theorem State.onUnit_next {s t : State} {k : Nat} {f : HzcUnit → HzcUnit} (h : s.onUnit k f = .next t) :
    ∃ u, s.units[k]? = some u ∧ t = s.setUnit k (f u) := by
  unfold State.onUnit at h
  split at h
  · next u hu => exact ⟨u, hu, by injection h with h; exact h.symm⟩
  · cases h

section AfterCmd
variable (s : State) (k : Nat) (u v : HzcUnit)

/-- A CMD write puts the instance back and may add to what the host owes; nothing else. -/
theorem State.afterCmd_eq : ∃ duty, s.afterCmd k u v = { s.setUnit k v with duty := duty } := by
  unfold State.afterCmd State.addDuty
  split
  · split
    · exact ⟨s.duty, rfl⟩
    · exact ⟨_, rfl⟩
  · exact ⟨s.duty, rfl⟩

@[simp] theorem State.afterCmd_platform : (s.afterCmd k u v).platform = s.platform := by
  obtain ⟨_, h⟩ := State.afterCmd_eq s k u v
  rw [h]; rfl
@[simp] theorem State.afterCmd_units : (s.afterCmd k u v).units = s.units.set k v := by
  obtain ⟨_, h⟩ := State.afterCmd_eq s k u v
  rw [h]; rfl
@[simp] theorem State.afterCmd_mem : (s.afterCmd k u v).mem = s.mem := by
  obtain ⟨_, h⟩ := State.afterCmd_eq s k u v
  rw [h]; rfl
@[simp] theorem State.afterCmd_history : (s.afterCmd k u v).history = s.history := by
  obtain ⟨_, h⟩ := State.afterCmd_eq s k u v
  rw [h]; rfl
@[simp] theorem State.afterCmd_hostRace : (s.afterCmd k u v).hostRace = s.hostRace := by
  obtain ⟨_, h⟩ := State.afterCmd_eq s k u v
  rw [h]; rfl
@[simp] theorem State.afterCmd_rdata : (s.afterCmd k u v).rdata = s.rdata := by
  obtain ⟨_, h⟩ := State.afterCmd_eq s k u v
  rw [h]; rfl
@[simp] theorem State.afterCmd_sched : (s.afterCmd k u v).sched = s.sched := by
  obtain ⟨_, h⟩ := State.afterCmd_eq s k u v
  rw [h]; rfl
@[simp] theorem State.afterCmd_sel : (s.afterCmd k u v).sel = s.sel := by
  obtain ⟨_, h⟩ := State.afterCmd_eq s k u v
  rw [h]; rfl

/-- What is owed after a CMD write: the read range of a command that was just accepted, and what was owed before. -/
theorem State.mem_afterCmd {d : Duty} :
    d ∈ (s.afterCmd k u v).duty ↔
      (u.busy = false ∧ v.busy = true ∧ v.extent ≠ 0 ∧ d = ⟨k, v.lAddr, v.extent⟩) ∨ d ∈ s.duty := by
  unfold State.afterCmd
  split
  · next h => simp only [State.mem_addDuty, State.setUnit_duty, h.1, h.2, true_and]
  · next h =>
    rw [State.setUnit_duty]
    exact ⟨.inr, fun hd => hd.elim (fun hd => absurd ⟨hd.1, hd.2.1⟩ h) id⟩

variable {s k u v}

/-- A CMD write that is not accepted adds no duty. -/
theorem State.afterCmd_idle (h : v.busy = false) : s.afterCmd k u v = s.setUnit k v := by
  simp [State.afterCmd, h]

/-- A CMD write to a busy instance adds no duty. -/
theorem State.afterCmd_busy (h : u.busy = true) : s.afterCmd k u v = s.setUnit k v := by
  simp [State.afterCmd, h]

/-- An accepted CMD write adds the read range of the command. -/
theorem State.afterCmd_accepted (hu : u.busy = false) (hv : v.busy = true) :
    s.afterCmd k u v = (s.setUnit k v).addDuty k v.lAddr v.extent := by
  simp [State.afterCmd, hu, hv]

end AfterCmd

/-- What a CMD write answers at an instance that exists. -/
theorem State.command_some {s : State} {u : HzcUnit} (h : s.units[s.sel]? = some u)
    (check : Platform → HzcUnit → Option ErrCode) (start : HzcUnit → HzcUnit) :
    s.command check start = .next (s.afterCmd s.sel u (u.cmdWrite s.platform check start)) := by
  simp [State.command, h]

/-- Everything a CMD write can do when it answers a next state. -/
theorem State.command_next {s t : State} {check : Platform → HzcUnit → Option ErrCode} {start : HzcUnit → HzcUnit}
    (h : s.command check start = .next t) :
    ∃ u, s.units[s.sel]? = some u ∧ t = s.afterCmd s.sel u (u.cmdWrite s.platform check start) := by
  unfold State.command at h
  split at h
  · next u hu => exact ⟨u, hu, by injection h with h; exact h.symm⟩
  · cases h

/-- The check of a command after decoding (60_exceptions.md R181). -/
def checkOf : Instr → Platform → HzcUnit → Option ErrCode
  | .probe | .part => noCheck
  | .fold8 | .fold64 => capCheck
  | .csumb | .csum => byteRangeCheck
  | .csumw => wordRangeCheck

/-- The issue of a command. -/
def startOf : Instr → HzcUnit → HzcUnit
  | .probe => startProbe
  | .fold8 => startFold8
  | .fold64 => startFold64
  | .csumb => startCsumb
  | .csumw => startCsumw
  | .csum => startCsum
  | .part => startPart

/-- Every command is the CMD write of its word. -/
theorem exec_eq_command (i : Instr) (s : State) : exec i s = s.command (checkOf i) (startOf i) := by
  cases i <;> rfl

/-- What a command answers at an instance that exists. -/
theorem exec_some {s : State} {u : HzcUnit} (h : s.units[s.sel]? = some u) (i : Instr) :
    exec i s = .next (s.afterCmd s.sel u (u.cmdWrite s.platform (checkOf i) (startOf i))) := by
  rw [exec_eq_command, State.command_some h]

/-- Everything a CMD write can do at an instance (60_exceptions.md R181). -/
theorem HzcUnit.cmdWrite_cases (p : Platform) (check : Platform → HzcUnit → Option ErrCode) (start : HzcUnit → HzcUnit)
    (u : HzcUnit) :
    (u.err ≠ .none ∧ u.cmdWrite p check start = u) ∨
    (u.err = .none ∧ u.busy = true ∧ u.cmdWrite p check start = u.raise .busy) ∨
    (u.err = .none ∧ u.busy = false ∧ ∃ e, check p u = some e ∧ u.cmdWrite p check start = u.raise e) ∨
    (u.err = .none ∧ u.busy = false ∧ check p u = none ∧ u.cmdWrite p check start = start u) := by
  unfold HzcUnit.cmdWrite
  by_cases he : u.err = .none
  · cases hb : u.busy
    · cases hc : check p u <;> simp [he]
    · simp [he]
  · simp [he]

/-- A ready instance accepts what the check passes. -/
theorem HzcUnit.cmdWrite_accept {p : Platform} {check : Platform → HzcUnit → Option ErrCode}
    {start : HzcUnit → HzcUnit} {u : HzcUnit} (he : u.err = .none) (hb : u.busy = false) (hc : check p u = none) :
    u.cmdWrite p check start = start u := by
  simp [HzcUnit.cmdWrite, he, hb, hc]

/-- A ready instance faults with the code the check gives. -/
theorem HzcUnit.cmdWrite_refuse {p : Platform} {check : Platform → HzcUnit → Option ErrCode}
    {start : HzcUnit → HzcUnit} {u : HzcUnit} {e : ErrCode} (he : u.err = .none) (hb : u.busy = false)
    (hc : check p u = some e) : u.cmdWrite p check start = u.raise e := by
  simp [HzcUnit.cmdWrite, he, hb, hc]

/-- Every issue is `HzcUnit.issue` with the command's code, an ACC and phases. -/
theorem startOf_eq_issue (i : Instr) (u : HzcUnit) : ∃ acc q, startOf i u = u.issue (opCode i) acc q := by
  cases i <;> exact ⟨_, _, rfl⟩

/-- The decoder gives a command back from its code. -/
@[simp] theorem opInstr_opCode (i : Instr) : opInstr (opCode i) = some i := by
  cases i <;> rfl

/-- The host store leaves every instance's registers alone but for `raced`. -/
theorem HzcUnit.noteStore_cases (a : Word64) (u : HzcUnit) :
    (u.inReadRange a = true ∧ u.noteStore a = { u with raced := a :: u.raced }) ∨
    (u.inReadRange a = false ∧ u.noteStore a = u) := by
  unfold HzcUnit.noteStore
  cases h : u.inReadRange a <;> simp

end Sys2Proof.Machine
end

