-- ==== Sys2Proof/Laws/PerInstr.lean ====
section
/-! SUPPORT. The encoding law, one lemma per command: the command is well formed, its word has the reserved field
zero and its code in bits 3:0, the table's word of 32 bits decodes to it, and so do its bytes wherever they stand. -/

namespace Sys2Proof.Laws.Encoding

/-- What the encoding of one command says (30_encoding.md R70, R72). -/
def Statement (i : Instr) : Prop :=
  i.wellFormed = true ∧ rsvField (encodeWord i) = 0 ∧ opField (encodeWord i) = opCode i ∧
    decodeTableWord 32 (encodeWord i).toNat = some i ∧ ∀ rest, decode (encode i ++ rest) = .ok (i, rest)

theorem probe : Statement .probe := ⟨rfl, rfl, rfl, rfl, fun _ => rfl⟩
theorem fold8 : Statement .fold8 := ⟨rfl, rfl, rfl, rfl, fun _ => rfl⟩
theorem fold64 : Statement .fold64 := ⟨rfl, rfl, rfl, rfl, fun _ => rfl⟩
theorem csumb : Statement .csumb := ⟨rfl, rfl, rfl, rfl, fun _ => rfl⟩
theorem csumw : Statement .csumw := ⟨rfl, rfl, rfl, rfl, fun _ => rfl⟩
theorem csum : Statement .csum := ⟨rfl, rfl, rfl, rfl, fun _ => rfl⟩
theorem part : Statement .part := ⟨rfl, rfl, rfl, rfl, fun _ => rfl⟩

end Sys2Proof.Laws.Encoding
end

