-- ==== Sys2Proof/Laws/Sequencer.lean ====
section
/-! SUPPORT. What a sequencer step can do, once, and the laws of a run of steps. -/

namespace Sys2Proof.Machine

/-- Everything a sequencer step can do when it answers a next state (10_state.md R36). -/
theorem State.seqStep_next {s t : State} {k : Nat} (h : s.seqStep k = .next t) :
    ∃ u, s.units[k]? = some u ∧
      ((u.busy = false ∧ t = s) ∨
       (u.busy = true ∧ u.q = [] ∧ ∃ i, opInstr u.lOp = some i ∧ t = s.setUnit k (completeInstr s.platform i u)) ∨
       (u.busy = true ∧ ∃ f rest, u.q = f :: rest ∧ f.remaining = 0 ∧ t = s.setUnit k { u with q := rest }) ∨
       (u.busy = true ∧ ∃ f rest, u.q = f :: rest ∧ f.remaining ≠ 0 ∧
         (∀ x ∈ readAddresses f.cursor f.kind.width, readableAt s.platform x = true) ∧
         t = (s.record ⟨k, f.cursor, f.kind.width, s.readValue u f.cursor f.kind.width⟩).setUnit k
           { u with acc := foldUnit f.kind u.acc (s.readValue u f.cursor f.kind.width), q := f.advance :: rest })) := by
  unfold State.seqStep at h
  split at h
  · next u hu =>
    refine ⟨u, hu, ?_⟩
    split at h
    · next hb =>
      refine .inr ?_
      unfold State.busyStep at h
      split at h
      · next hq =>
        split at h
        · next i hi => injection h with h; exact .inl ⟨hb, hq, i, hi, h.symm⟩
        · cases h
      · next f rest hq =>
        split at h
        · next h0 => injection h with h; exact .inr (.inl ⟨hb, f, rest, hq, h0, h.symm⟩)
        · next h0 =>
          unfold State.foldStep at h
          split at h
          · next ha => injection h with h; exact .inr (.inr ⟨hb, f, rest, hq, h0, List.all_eq_true.mp ha, h.symm⟩)
          · cases h
    · next hb => injection h with h; exact .inl ⟨by simpa using hb, h.symm⟩
  · cases h

/-- A completion step. -/
theorem State.seqStep_complete {s : State} {k : Nat} {u : HzcUnit} {i : Instr} (h : s.units[k]? = some u)
    (hb : u.busy = true) (hq : u.q = []) (hi : opInstr u.lOp = some i) :
    s.seqStep k = .next (s.setUnit k (completeInstr s.platform i u)) := by
  simp [State.seqStep, State.busyStep, h, hb, hq, hi]

/-- A step that drops an empty phase. -/
theorem State.seqStep_drop {s : State} {k : Nat} {u : HzcUnit} {f : Phase} {rest : List Phase}
    (h : s.units[k]? = some u) (hb : u.busy = true) (hq : u.q = f :: rest) (h0 : f.remaining = 0) :
    s.seqStep k = .next (s.setUnit k { u with q := rest }) := by
  simp [State.seqStep, State.busyStep, h, hb, hq, h0]

/-- A step that reads and folds one unit. -/
theorem State.seqStep_fold {s : State} {k : Nat} {u : HzcUnit} {f : Phase} {rest : List Phase}
    (h : s.units[k]? = some u) (hb : u.busy = true) (hq : u.q = f :: rest) (h0 : f.remaining ≠ 0)
    (hr : ∀ x ∈ readAddresses f.cursor f.kind.width, readableAt s.platform x = true) :
    s.seqStep k = .next ((s.record ⟨k, f.cursor, f.kind.width, s.readValue u f.cursor f.kind.width⟩).setUnit k
      { u with acc := foldUnit f.kind u.acc (s.readValue u f.cursor f.kind.width), q := f.advance :: rest }) := by
  simp only [State.seqStep, h, hb, if_true, State.busyStep, hq, h0, if_false, State.foldStep]
  rw [if_pos (List.all_eq_true.mpr hr)]

@[simp] theorem State.seqRun_zero (k : Nat) (s : State) : State.seqRun k 0 s = .next s := rfl

/-- A run whose first step is known. -/
theorem State.seqRun_succ {k n : Nat} {s t : State} (h : s.seqStep k = .next t) :
    State.seqRun k (n + 1) s = State.seqRun k n t := by
  simp [State.seqRun, h]

/-- Two runs in a row. -/
theorem State.seqRun_add {k m n : Nat} {s t : State} (h : State.seqRun k m s = .next t) :
    State.seqRun k (m + n) s = State.seqRun k n t := by
  induction m generalizing s with
  | zero =>
    rw [State.seqRun_zero] at h
    injection h with h
    rw [h, Nat.zero_add]
  | succ m ih =>
    rw [Nat.succ_add, State.seqRun]
    rw [State.seqRun] at h
    split at h
    · next t' ht => exact ih h
    · cases h
    · cases h

end Sys2Proof.Machine
end

