-- ==== Sys2Proof/Laws/Step.lean ====
section
/-! SUPPORT. What a step of the machine can do: one lemma per kind of event. -/

namespace Sys2Proof.Machine

/-- A step takes the first scheduled event. -/
theorem step_scheduled {s : State} {e : Event} {rest : List Event} (h : s.sched = e :: rest) :
    step s = State.event { s with sched := rest } e := by
  simp [step, h]

/-- A step with nothing scheduled. -/
theorem step_quiet {s : State} (h : s.sched = []) : step s = s.quietStep := by
  simp [step, h]

/-- The code path of a CMD write: a command, or an illegal word. -/
theorem State.cmdWrite_cases (s : State) (v : Word32) :
    (∃ i, decodeWord v = .ok i ∧ s.cmdWrite v = exec i s) ∨
    (∃ e, decodeWord v = .error e ∧ s.cmdWrite v = s.illegalCommand) := by
  unfold State.cmdWrite
  cases decodeWord v <;> simp

/-- A window read returns its value and may end what the host owes the instance; nothing else (10_state.md R23). -/
theorem State.hostRead_eq (s : State) (u : HzcUnit) (a : Access) :
    s.hostRead u a = { s with
      rdata := u.readWindow s.platform a
      duty := if a.readsStatus = true ∧ u.busy = false then s.duty.filter fun d => d.unit != s.sel else s.duty } := by
  unfold State.hostRead
  cases a.readsStatus <;> cases u.busy <;> rfl

section HostRead
variable (s : State) (u : HzcUnit) (a : Access)

@[simp] theorem State.hostRead_platform : (s.hostRead u a).platform = s.platform := by rw [State.hostRead_eq]
@[simp] theorem State.hostRead_units : (s.hostRead u a).units = s.units := by rw [State.hostRead_eq]
@[simp] theorem State.hostRead_mem : (s.hostRead u a).mem = s.mem := by rw [State.hostRead_eq]
@[simp] theorem State.hostRead_history : (s.hostRead u a).history = s.history := by rw [State.hostRead_eq]
@[simp] theorem State.hostRead_hostRace : (s.hostRead u a).hostRace = s.hostRace := by rw [State.hostRead_eq]
@[simp] theorem State.hostRead_sched : (s.hostRead u a).sched = s.sched := by rw [State.hostRead_eq]
@[simp] theorem State.hostRead_sel : (s.hostRead u a).sel = s.sel := by rw [State.hostRead_eq]
@[simp] theorem State.hostRead_rdata : (s.hostRead u a).rdata = u.readWindow s.platform a := by rw [State.hostRead_eq]

end HostRead

/-- Everything a window access can do when it answers a next state: change the selected instance by one of three
functions, or return a value. -/
theorem State.windowAccess_next {s t : State} {a : Access} (h : s.windowAccess a = .next t) :
    ∃ u, s.units[s.sel]? = some u ∧
      ((∃ i, a.writesCmd = true ∧ decodeWord (lo32 a.value) = .ok i ∧
          t = s.afterCmd s.sel u (u.cmdWrite s.platform (checkOf i) (startOf i))) ∨
       (∃ e, a.writesCmd = true ∧ decodeWord (lo32 a.value) = .error e ∧
          t = s.afterCmd s.sel u (u.cmdWrite s.platform badopCheck id)) ∨
       (a.writesCmd = false ∧ a.dir = .write ∧ t = s.setUnit s.sel (u.writeWindow a)) ∨
       (a.writesCmd = false ∧ a.dir = .read ∧ t = s.hostRead u a)) := by
  unfold State.windowAccess at h
  split at h
  · next hw =>
    rcases State.cmdWrite_cases s (lo32 a.value) with ⟨i, hi, he⟩ | ⟨e, hi, he⟩
    · rw [he, exec_eq_command] at h
      obtain ⟨u, hu, rfl⟩ := State.command_next h
      exact ⟨u, hu, .inl ⟨i, hw, hi, rfl⟩⟩
    · rw [he, State.illegalCommand] at h
      obtain ⟨u, hu, rfl⟩ := State.command_next h
      exact ⟨u, hu, .inr (.inl ⟨e, hw, hi, rfl⟩)⟩
  · next hw =>
    split at h
    · next hd =>
      obtain ⟨u, hu, rfl⟩ := State.onUnit_next h
      exact ⟨u, hu, .inr (.inr (.inl ⟨by simpa using hw, hd, rfl⟩))⟩
    · next hd =>
      split at h
      · next u hu =>
        injection h with h
        exact ⟨u, hu, .inr (.inr (.inr ⟨by simpa using hw, hd, h.symm⟩))⟩
      · cases h

/-- Everything a pass of `wait` can do when it answers a next state: STATUS is read, and while BUSY is 1 a step of
the sequencer and another pass are scheduled. -/
theorem State.waitStep_next {s t : State} {k : Nat} (h : s.waitStep k = .next t) :
    ∃ u, s.units[k]? = some u ∧
      ∃ sched, t = { s with
        sel := k, rdata := u.readWindow s.platform statusRead, sched := sched
        duty := if u.busy = false then s.duty.filter fun d => d.unit != k else s.duty } := by
  unfold State.waitStep at h
  split at h
  · next t' ht =>
    obtain ⟨u, hu, ⟨_, hw, -⟩ | ⟨_, hw, -⟩ | ⟨-, hd, -⟩ | ⟨-, -, rfl⟩⟩ := State.windowAccess_next ht
    · exact absurd hw (by simp [Access.writesCmd, statusRead])
    · exact absurd hw (by simp [Access.writesCmd, statusRead])
    · exact absurd hd (by simp [statusRead])
    · refine ⟨u, hu, ?_⟩
      injection h with h
      rw [State.hostRead_eq] at h
      simp only [show statusRead.readsStatus = true from rfl, true_and] at h
      split at h
      · exact ⟨_, h.symm⟩
      · exact ⟨s.sched, h.symm⟩
  · cases h
  · cases h

/-- Everything a step with nothing scheduled can do when it answers a next state. -/
theorem State.quietStep_next {s t : State} (h : s.quietStep = .next t) :
    t = s ∨ ∃ k, s.seqStep k = .next t := by
  unfold State.quietStep at h
  split at h
  · next k _ => exact .inr ⟨k, h⟩
  · injection h with h
    exact .inl h.symm

/-- Everything a step can do when it answers a next state: from the state without its first event, a window access
to an instance, a host store, a reset, a sequencer step, a pass of `wait`, or nothing. -/
theorem step_next {s t : State} (h : step s = .next t) :
    ∃ r, r = { s with sched := s.sched.tail } ∧
      ((∃ k a, (r.select k).windowAccess a = .next t) ∨
       (∃ a b, s.sched.head? = some (.store a b) ∧ t = r.hostStore a b) ∨
       (∃ k, s.sched.head? = some (.resetInput k) ∧ r.resetUnit k = .next t) ∨
       (∃ k, r.seqStep k = .next t) ∨
       (∃ k, s.sched.head? = some (.wait k) ∧ r.waitStep k = .next t) ∨
       t = s) := by
  refine ⟨_, rfl, ?_⟩
  unfold step at h
  split at h
  · next hs =>
    have hr : { s with sched := s.sched.tail } = s := by
      obtain ⟨_, _, _, _, _, _, _, sched, _⟩ := s
      obtain rfl : sched = [] := hs
      rfl
    rcases State.quietStep_next h with rfl | ⟨k, hk⟩
    · exact .inr (.inr (.inr (.inr (.inr rfl))))
    · exact .inr (.inr (.inr (.inl ⟨k, by rw [hr]; exact hk⟩)))
  · next e rest hs =>
    simp only [hs, List.tail_cons, List.head?_cons]
    cases e with
    | access k a => exact .inl ⟨k, a, h⟩
    | bus address dir size value =>
      simp only [State.event] at h
      split at h
      · next k off _ => exact .inl ⟨k, _, h⟩
      · cases h
    | store a b => injection h with h; exact .inr (.inl ⟨a, b, rfl, h.symm⟩)
    | resetInput k => exact .inr (.inr (.inl ⟨k, rfl, h⟩))
    | tick k => exact .inr (.inr (.inr (.inl ⟨k, h⟩)))
    | wait k => exact .inr (.inr (.inr (.inr (.inl ⟨k, rfl, h⟩))))
    | chainSeed k => exact .inl ⟨k, _, h⟩

end Sys2Proof.Machine
end

