-- ==== Sys2Proof/Laws/Safety.lean ====
section
/-! SUPPORT. The small lemmas of the definitions claims are stated with. -/

namespace Sys2Proof.Machine

section AddReads
variable (s : State) (rs qs : List ReadEvent)

@[simp] theorem State.addReads_platform : (s.addReads rs).platform = s.platform := rfl
@[simp] theorem State.addReads_units : (s.addReads rs).units = s.units := rfl
@[simp] theorem State.addReads_mem : (s.addReads rs).mem = s.mem := rfl
@[simp] theorem State.addReads_history : (s.addReads rs).history = rs.reverse ++ s.history := rfl
@[simp] theorem State.addReads_hostRace : (s.addReads rs).hostRace = s.hostRace := rfl
@[simp] theorem State.addReads_duty : (s.addReads rs).duty = s.duty := rfl
@[simp] theorem State.addReads_rdata : (s.addReads rs).rdata = s.rdata := rfl
@[simp] theorem State.addReads_sched : (s.addReads rs).sched = s.sched := rfl
@[simp] theorem State.addReads_sel : (s.addReads rs).sel = s.sel := rfl

/-- No reads added: the state itself. -/
@[simp] theorem State.addReads_nil : s.addReads [] = s := rfl

/-- Reads added in two goes. -/
@[simp] theorem State.addReads_addReads : (s.addReads rs).addReads qs = s.addReads (rs ++ qs) := by
  simp [State.addReads]

/-- Recording one read adds it. -/
theorem State.record_eq_addReads (e : ReadEvent) : s.record e = s.addReads [e] := rfl

/-- Adding reads and putting an instance back do not depend on their order. -/
@[simp] theorem State.setUnit_addReads (k : Nat) (u : HzcUnit) :
    (s.setUnit k u).addReads rs = (s.addReads rs).setUnit k u := rfl

/-- Owing a range and adding reads do not depend on their order. -/
@[simp] theorem State.addDuty_addReads (k : Nat) (a : Word64) (n : Nat) :
    (s.addDuty k a n).addReads rs = (s.addReads rs).addDuty k a n := by
  unfold State.addDuty
  split <;> rfl

end AddReads

/-- The read range of a command just issued is that of the operand registers (20_memory.md R51). -/
@[simp] theorem startOf_extent (i : Instr) (u : HzcUnit) : (startOf i u).extent = extentOf i u.len.toNat := by
  obtain ⟨acc, q, h⟩ := startOf_eq_issue i u
  rw [h, HzcUnit.extent, HzcUnit.issue_lOp, opInstr_opCode, HzcUnit.count, HzcUnit.issue_lLen]

/-- A command that is admitted passes its check. -/
theorem checkOf_eq_none {p : Platform} {u : HzcUnit} {i : Instr} (h : u.admits p i) : checkOf i p u = none := by
  obtain ⟨hc, ha, hr⟩ := h
  cases i <;> simp_all [checkOf, noCheck, capCheck, byteRangeCheck, wordRangeCheck, usesCrc, extentOf]

/-- A ready instance issues a command that is admitted, and the host owes its read range. -/
theorem exec_accepted {s : State} {u : HzcUnit} {i : Instr} (h : s.units[s.sel]? = some u) (hr : u.ready)
    (ha : u.admits s.platform i) : exec i s =
      .next ((s.setUnit s.sel (startOf i u)).addDuty s.sel u.addr (extentOf i u.len.toNat)) := by
  obtain ⟨acc, q, hs⟩ := startOf_eq_issue i u
  rw [exec_some h, HzcUnit.cmdWrite_accept hr.1 hr.2 (checkOf_eq_none ha),
    State.afterCmd_accepted hr.2 (by rw [hs]; rfl), startOf_extent, hs, HzcUnit.issue_lAddr]

end Sys2Proof.Machine
end

