-- ==== Sys2Proof/Tests/Slice0.lean ====
section
/-! SUPPORT. Tests: words written out bit by bit, the smoke test of the well-formedness checks, one step of each
command against the vectors of 95_test_vectors.md, and a witness for every obligation that has hypotheses. Expected
values come from the spec: each test names its vector or rule. -/

namespace Sys2Proof.Tests

open Sys2Proof.Machine

/-! ## Decoding: the words of 30_encoding.md R72, bit by bit -/

theorem test_decode_probe : decodeWord 0b00000000000000000000000000000001#32 = .ok .probe := by decide
theorem test_decode_fold8 : decodeWord 0b00000000000000000000000000000010#32 = .ok .fold8 := by decide
theorem test_decode_fold64 : decodeWord 0b00000000000000000000000000000011#32 = .ok .fold64 := by decide
theorem test_decode_csumb : decodeWord 0b00000000000000000000000000000100#32 = .ok .csumb := by decide
theorem test_decode_csumw : decodeWord 0b00000000000000000000000000000101#32 = .ok .csumw := by decide
theorem test_decode_csum : decodeWord 0b00000000000000000000000000000110#32 = .ok .csum := by decide
theorem test_decode_part : decodeWord 0b00000000000000000000000000000111#32 = .ok .part := by decide

/-- R73: a reserved code, lowest and highest. -/
theorem test_decode_reserved_codes :
    decodeWord 0b00000000000000000000000000000000#32 = .error (.reservedOp 0) ∧
      decodeWord 0b00000000000000000000000000001000#32 = .error (.reservedOp 8) ∧
      decodeWord 0b00000000000000000000000000001111#32 = .error (.reservedOp 15) := by decide

/-- R73: a reserved bit, lowest and highest, beside a good code. -/
theorem test_decode_reserved_bits :
    decodeWord 0b00000000000000000000000000010001#32 = .error (.reservedBits 1) ∧
      decodeWord 0b10000000000000000000000000000001#32 = .error (.reservedBits 0x8000000) := by decide

/-- 10_state.md R23: a command word lies with its low byte first. -/
theorem test_decode_bytes : decode [0x06, 0x00, 0x00, 0x00, 0xFF] = .ok (.csum, [0xFF]) := by decide

theorem test_decode_truncated : decode [0x06, 0x00, 0x00] = .error .truncated := by decide

/-- A command word has 32 bits, so a 64-bit word with a bit above them is no command. -/
theorem test_decode_table_word :
    decodeTableWord 32 7 = some .part ∧ decodeTableWord 64 0x100000007 = none ∧ decodeTableWord 32 8 = none := by decide

/-! ## Well-formedness: each check refuses an ill-formed access -/

theorem test_access_good :
    (Access.wellFormed ⟨.write, 0x14, 4, 0xFFFFFFFF⟩ && Access.wellFormed ⟨.read, 0xF8, 8, 0⟩) = true := by decide
theorem test_access_bad_size : Access.wellFormed ⟨.write, 0x10, 2, 0xFFFF⟩ = false := by decide
theorem test_access_misaligned : Access.wellFormed ⟨.write, 0x12, 4, 0xFFFFFFFF⟩ = false := by decide
theorem test_access_value_too_wide : Access.wellFormed ⟨.write, 0x10, 4, 0x100000000⟩ = false := by decide
theorem test_instr_well_formed : Instr.all.all Instr.wellFormed = true := by decide

/-! ## Small states -/

/-- The standard platform of 95_test_vectors.md: CAP = 1, 0x1000 to 0x7FFF readable. -/
def plat : Platform := ⟨0x00100000, [⟨0x1000, 0x7000⟩], [0x40000000]⟩

/-- A platform without the capability: every feature bit but bit 20 (V52). -/
def platNoCap : Platform := { plat with featWord := 0xFFEFFFFF }

/-- The bytes 0x00 to 0x07 at 0x1000; a byte 0x00 is not listed. -/
def mem : List Host.Cell :=
  [(0x1001, 1), (0x1002, 2), (0x1003, 3), (0x1004, 4), (0x1005, 5), (0x1006, 6), (0x1007, 7)]

/-- One instance on the standard platform. -/
def st (u : HzcUnit) : State := ⟨plat, [u], mem, [], false, [], 0, [], 0⟩

/-- The same without the capability. -/
def stNoCap (u : HzcUnit) : State := { st u with platform := platNoCap }

/-- One instance and the events to come. -/
def stWith (u : HzcUnit) (es : List Event) : State := { st u with sched := es }

/-- An idle instance with its operand registers set. -/
def idle (seed addr : Word64) (len : Word32) (data : Word64) : HzcUnit :=
  { HzcUnit.reset with seed := seed, addr := addr, len := len, data := data }

/-- An instance with a command in progress. -/
def going (op : BitVec 4) (seed addr : Word64) (len : Word32) (data acc : Word64) (q : List Phase) : HzcUnit :=
  { HzcUnit.reset with busy := true, lOp := op, lSeed := seed, lAddr := addr, lLen := len, lData := data, acc := acc, q := q }

/-- One instance, and a host that owes it the bytes 0x1000 and 0x1001. -/
def owing (u : HzcUnit) : State := { st u with duty := [⟨0, 0x1000, 2⟩] }

/-- The instance after a step that answers a next state. -/
def unitOf : Result → Option HzcUnit
  | .next t => t.units[0]?
  | .fault _ => none
  | .refused _ => none

/-- STATUS after a step. -/
def statusOf (p : Platform) (r : Result) : Option Word32 := (unitOf r).map (·.status p)

/-! ## One step of each command -/

/-- V50 and V52: the completion of PROBE with CAP = 1, and with every feature bit but CAP. -/
theorem test_probe_completes :
    (unitOf ((st (going 1 0 0 0 0 0 [])).seqStep 0)).map (·.result) = some 1 ∧
      statusOf platNoCap ((stNoCap (going 1 0 0 0 0 0 [])).seqStep 0) = some 0x00000002 := by decide

/-- 41_byte_accumulator.md R113: FOLD8 issues with no phase. 10_state.md R39 and R33: ACC is the low seed, whatever the
command before it left there. -/
theorem test_fold8_issues :
    (unitOf (exec .fold8 (st { idle 0x900000005 6 7 8 with acc := 77 }))).map
      (fun u => (u.lOp, u.lSeed, u.lData, u.q, u.busy, u.acc)) = some (2, 0x900000005, 8, [], true, 5) := by rfl

/-- 10_state.md R39 and R33 for FOLD64. -/
theorem test_fold64_issues :
    (unitOf (exec .fold64 (st { idle 0x900000005 6 7 8 with acc := 77 }))).map (fun u => (u.lOp, u.acc)) =
      some (3, 5) := by rfl

/-- V3 and V3b: only SEED[31:0] and DATA[7:0] count. -/
theorem test_fold8_completes :
    (unitOf ((st (going 2 0xFFFFFFFF12345678 0 0 0xAB 0 [])).seqStep 0)).map (·.result) = some 0xC0912609 ∧
      (unitOf ((st (going 2 0xFFFFFFFF 0 0 0x100 0 [])).seqStep 0)).map (·.result) = some 0xAD82ACAE := by decide

/-- V5 and V7: the byte at the lowest address is folded first. -/
theorem test_fold64_completes :
    (unitOf ((st (going 3 0xFFFFFFFF 0 0 0x0706050403020100 0 [])).seqStep 0)).map (·.result) = some 0x75D343C4 ∧
      (unitOf ((st (going 3 0x12345678 0 0 0x3837363534333231 0 [])).seqStep 0)).map (·.result) = some 0xA6E55F07 := by
  decide +kernel

/-- 42_word_accumulator.md R133 and 60_exceptions.md R182: FOLD64 without the capability faults. -/
theorem test_fold64_gated : statusOf platNoCap (exec .fold64 (stNoCap (idle 0 0 0 0))) = some 0x00000020 := by decide

/-- 41_byte_accumulator.md R114: CSUMB starts from the low seed, with one BYTE phase. -/
theorem test_csumb_issues :
    (unitOf (exec .csumb (st (idle 0xDEADBEEF00000001 0x7FFC 4 0)))).map (fun u => (u.acc, u.q)) =
      some (1, [⟨.byte, 0x7FFC, 4⟩]) := by decide

/-- V16: the byte 0x00 at 0x1000 is folded into 0xFFFFFFFF. -/
theorem test_csumb_folds :
    (unitOf ((st (going 4 0xFFFFFFFF 0x1000 1 0 0xFFFFFFFF [⟨.byte, 0x1000, 1⟩])).seqStep 0)).map
      (fun u => (u.acc, u.q)) = some (0xAD82ACAE, [⟨.byte, 0x1001, 0⟩]) := by decide

/-- V5 and R132: the word at 0x1000 is folded, and the upper half of the container goes. -/
theorem test_csumw_folds :
    (unitOf ((st (going 5 0xDEADBEEFFFFFFFFF 0x1000 1 0 0xDEADBEEFFFFFFFFF [⟨.word, 0x1000, 1⟩])).seqStep 0)).map
      (fun u => (u.acc, u.q)) = some (0x75D343C4, [⟨.word, 0x1008, 0⟩]) := by decide +kernel

/-- V23: with no word folded, the whole container is the result. -/
theorem test_csumw_completes :
    (unitOf ((st (going 5 0xDEADBEEF00000001 0x1000 0 0 0xDEADBEEF00000001 [])).seqStep 0)).map (·.result) =
      some 0xDEADBEEF00000001 := by decide

/-- V40: the phases of CSUM at 0x3005 for 20 bytes. -/
theorem test_csum_issues :
    (unitOf (exec .csum (st (idle 0xFFFFFFFF 0x3005 20 0)))).map (·.q) =
      some [⟨.byte, 0x3005, 3⟩, ⟨.word, 0x3008, 2⟩, ⟨.byte, 0x3018, 1⟩] := by decide

/-- V40: the completion of that CSUM. -/
theorem test_csum_completes :
    (unitOf ((st (going 6 0xFFFFFFFF 0x3005 20 0 0x8AE6928F [])).seqStep 0)).map
      (fun u => (u.result, u.plead, u.pwords, u.ptrail)) = some (0x8AE6928F, 3, 2, 1) := by decide

/-- V30, V35 and V36: PART, no range check, and RESULT unchanged. -/
theorem test_part_completes :
    (unitOf ((st (going 7 0 0x3005 20 0 0 [])).seqStep 0)).map (fun u => (u.plead, u.pwords, u.ptrail, u.result)) =
        some (3, 2, 1, 0) ∧
      (unitOf ((st (going 7 0 0x1000 0xFFFFFFFF 0 0 [])).seqStep 0)).map (fun u => (u.plead, u.pwords, u.ptrail)) =
        some (0, 536870911, 7) ∧
      (unitOf ((st (going 7 0 0xFFFFFFFFFFFFFFFF 20 0 0 [])).seqStep 0)).map
        (fun u => (u.plead, u.pwords, u.ptrail)) = some (1, 2, 3) := by decide

/-! ## Faults: V60 to V66, STATUS after one CMD write -/

theorem test_fault_badop : statusOf plat ((st (idle 0 0 0 0)).cmdWrite 0) = some 0x00000110 := by decide
theorem test_fault_badop_first : statusOf platNoCap ((stNoCap (idle 0 0 0 0)).cmdWrite 0x10) = some 0x00000010 := by decide
theorem test_fault_unsupported_before_align :
    statusOf platNoCap (exec .csumw (stNoCap (idle 0 3 0 0))) = some 0x00000020 := by decide
theorem test_fault_align : statusOf plat (exec .csumw (st (idle 0 0x1004 1 0))) = some 0x00000130 := by decide
theorem test_fault_range : statusOf plat (exec .csumb (st (idle 0 0x7FFC 5 0))) = some 0x00000140 := by decide
theorem test_fault_sticky :
    statusOf plat (exec .probe (st { idle 0 0 0 0 with err := .align })) = some 0x00000130 := by decide
theorem test_fault_busy :
    statusOf plat (exec .probe (st (going 6 0 0x1000 32 0 0 [⟨.word, 0x1008, 3⟩]))) = some 0x00000150 := by decide

/-! ## Window: V80 to V87 -/

/-- V80 and V81. -/
theorem test_window_writes :
    (unitOf ((st (idle 0x12345678 0 0 0)).windowAccess ⟨.write, 0x14, 4, 0xDEADBEEF⟩)).map (·.seed) =
        some 0xDEADBEEF12345678 ∧
      (unitOf ((st (idle 0 0 0 0)).windowAccess ⟨.write, 0x20, 8, 0xFFFFFFFF00000005⟩)).map (·.len) = some 5 := by decide

/-- V84 and V84a: misaligned accesses. -/
theorem test_window_misaligned :
    (unitOf ((st (idle 1 0 0 0)).windowAccess ⟨.write, 0x12, 4, 0xFFFFFFFF⟩)).map (·.seed) = some 1 ∧
      (idle 0xFFFFFFFFFFFFFFFF 0 0 0).readWindow plat ⟨.read, 0x11, 4, 0⟩ = 0 := by decide

/-- V85a: PLEAD and PWORDS in one read. -/
theorem test_window_pair :
    ({ idle 0 0 0 0 with plead := 7 } : HzcUnit).readWindow plat ⟨.read, 0x38, 8, 0⟩ = 7 := by decide

/-- V86: the low half of an 8-byte write at offset 0 issues PROBE. -/
theorem test_window_cmd_low_half :
    (unitOf ((st (idle 0 0 0 0)).windowAccess ⟨.write, 0x00, 8, 0xFFFFFFFF00000001⟩)).map (fun u => (u.lOp, u.busy)) =
      some (1, true) := by decide

/-- V87 and V87a: only SRST counts. -/
theorem test_window_ctrl :
    (unitOf ((st (idle 9 0 0 0)).windowAccess ⟨.write, 0x08, 4, 2⟩)).map (·.seed) = some 9 ∧
      (unitOf ((st (idle 9 0 0 0)).windowAccess ⟨.write, 0x08, 4, 3⟩)).map (·.seed) = some 0 := by decide

/-- V69: the accepted CSUM owes its range; a store into it is HostRace, one past its end is not. -/
theorem test_host_race :
    (match exec .csum (st (idle 0 0x1000 32 0)) with
      | .next t => [(0x0FFF : Word64), 0x1000, 0x101F, 0x1020].map fun a => (t.hostStore a 1).hostRace
      | _ => []) = [false, true, true, false] := by decide

/-- 70_reset_and_hazards.md R208: after BUSY has fallen a store is HostRace until the host reads BUSY = 0. -/
theorem test_host_race_ends_at_the_read :
    ((owing (idle 0 0 0 0)).hostStore 0x1000 1).hostRace = true ∧
      (match (owing (idle 0 0 0 0)).windowAccess ⟨.read, 0x04, 4, 0⟩ with
        | .next t => some (t.duty, (t.hostStore 0x1000 1).hostRace)
        | _ => none) = some ([], false) := by decide

/-- Storing the value an unlisted address reads as removes the entry. -/
theorem test_store_canonical :
    Memory.wf mem = true ∧ Memory.write [(0x1001, 1)] 0x1001 0 = [] ∧
      Memory.write mem 0x1000 9 = (0x1000, 9) :: mem := by decide

/-- `withFetchWord`: the very next step after reset is the CMD write of the word. -/
theorem test_fetch_word_runs : step (State.reset.withFetchWord 32 6) = exec .csum State.reset := rfl

/-! ## Witnesses: for every obligation with hypotheses, states and operands that meet all of them together -/

/-- A ready instance with a range in range at its upper end: 0x7FF8 to 0x7FFF. -/
def top : HzcUnit := idle 0xFFFFFFFF 0x7FF8 8 0x0706050403020100

/-- A ready instance at 0x1000 with 20 bytes from an odd address. -/
def odd : HzcUnit := idle 0xFFFFFFFF 0x3005 20 0

/-- An instance that is in progress with a CSUMB of two bytes, none of them read yet. -/
def busyB : HzcUnit := going 4 0xFFFFFFFF 0x1000 2 0 0xFFFFFFFF [⟨.byte, 0x1000, 2⟩]

/-- An instance that is in progress with a CSUMW of one word. -/
def busyW : HzcUnit := going 5 0xFFFFFFFF 0x1000 1 0 0xFFFFFFFF [⟨.word, 0x1000, 1⟩]

/-- An instance about to complete a CSUM. -/
def lastStep : HzcUnit := going 6 0xFFFFFFFF 0x3005 20 0 0x8AE6928F []

/-- An instance in the fault state. -/
def faulted : HzcUnit := { top with err := .align }

theorem witness_EncodedCommandsDecodeBack : ∀ i ∈ Instr.all, i.wellFormed = true := by decide

theorem witness_CmdWriteStepRunsTheDecodedCommand :
    (∀ size ∈ [4, 8], (stWith top [.access 0 ⟨.write, 0x00, size, 7⟩]).sched =
      .access 0 ⟨.write, 0x00, size, 7⟩ :: [] ∧ (size = 4 ∨ size = 8)) ∧
    (∀ i ∈ Instr.all, decodeWord ((zext64 (encodeWord i)).setWidth 32) = .ok i) ∧
    decodeWord ((0xFFFFFFFF00000001 : Word64).setWidth 32) = .ok .probe := by decide

/-- Each of the three ways to be illegal, at the ends of its range, in a CMD write to a ready instance. -/
theorem witness_IllegalCmdWordFaultsBadop :
    (∀ v, (stWith top [.access 0 ⟨.write, 0x00, 4, v⟩]).sched = .access 0 ⟨.write, 0x00, 4, v⟩ :: []) ∧
      (((0x10 : Word64).setWidth 32).extractLsb' 4 28 ≠ 0 ∧ ((0x80000001 : Word64).setWidth 32).extractLsb' 4 28 ≠ 0) ∧
      ((0 : Word64).setWidth 32).extractLsb' 0 4 = 0 ∧ 8 ≤ (((8 : Word64).setWidth 32).extractLsb' 0 4).toNat ∧
      8 ≤ (((15 : Word64).setWidth 32).extractLsb' 0 4).toNat ∧ (st top).units[0]? = some top ∧ top.ready :=
  ⟨fun _ => rfl, by decide, by decide, by decide, by decide, rfl, rfl, rfl⟩

theorem witness_CmdWritesAreIgnoredWhileErrIsSet :
    (st faulted).units[(st faulted).sel]? = some faulted ∧ faulted.err ≠ .none := by decide

theorem witness_CmdWriteWhileBusyAborts :
    (st busyB).units[(st busyB).sel]? = some busyB ∧ busyB.err = .none ∧ busyB.busy = true := by decide

theorem witness_CrcCommandsNeedTheCapability :
    (stNoCap top).units[(stNoCap top).sel]? = some top ∧ top.err = .none ∧ top.busy = false ∧
      (stNoCap top).platform.featWord.getLsbD 20 = false := by decide

/-- The addresses next to a multiple of 8, and a count of 0. -/
theorem witness_MisalignedCsumwFaultsAlign :
    (∀ a, (st (idle 0 a 0 0)).units[0]? = some (idle 0 a 0 0) ∧ (idle 0 a 0 0).ready) ∧ capOf (st top).platform = true ∧
      (idle 0 0x1001 0 0).addr.toNat % 8 ≠ 0 ∧ (idle 0 0x1007 0 0).addr.toNat % 8 ≠ 0 :=
  ⟨fun _ => ⟨rfl, rfl, rfl⟩, by decide, by decide, by decide⟩

/-- One byte past the readable range, for each command that reads. -/
theorem witness_RangesNotReadableFaultRange_unreadable :
    capOf plat = true ∧ (4 < extentOf .csumb 5 ∧ readableAt plat (0x7FFC + BitVec.ofNat 64 4) = false) ∧
      (4 < extentOf .csum 5 ∧ readableAt plat (0x7FFC + BitVec.ofNat 64 4) = false) ∧
      (8 < extentOf .csumw 2 ∧ readableAt plat (0x7FF8 + BitVec.ofNat 64 8) = false ∧ (0x7FF8 : Word64).toNat % 8 = 0) ∧
      (idle 0 0x7FFC 5 0).err = .none ∧ (idle 0 0x7FFC 5 0).busy = false ∧
      (st (idle 0 0x7FFC 5 0)).units[0]? = some (idle 0 0x7FFC 5 0) := by decide

/-- One byte past 2^64. -/
theorem witness_RangesNotReadableFaultRange_past_the_end :
    2 ^ 64 < (0xFFFFFFFFFFFFFFFC : Word64).toNat + extentOf .csum 5 ∧
      2 ^ 64 < (0xFFFFFFFFFFFFFFFC : Word64).toNat + extentOf .csumb 5 ∧
      2 ^ 64 < (0xFFFFFFFFFFFFFFF8 : Word64).toNat + extentOf .csumw 2 ∧ (0xFFFFFFFFFFFFFFF8 : Word64).toNat % 8 = 0 := by
  decide

/-- With and without the capability. -/
theorem witness_ProbeReportsTheCapability :
    (st top).units[(st top).sel]? = some top ∧ (stNoCap top).units[(stNoCap top).sel]? = some top ∧
      top.err = .none ∧ top.busy = false := by decide

theorem witness_Fold8ComputesTheByteFold :
    (st top).units[(st top).sel]? = some top ∧ top.err = .none ∧ top.busy = false ∧ capOf (st top).platform = true := by
  decide

theorem witness_Fold64ComputesTheWordFold :
    (st odd).units[(st odd).sel]? = some odd ∧ odd.err = .none ∧ odd.busy = false ∧ capOf (st odd).platform = true := by
  decide

theorem witness_PartWritesThePartition :
    (stNoCap odd).units[(stNoCap odd).sel]? = some odd ∧ odd.err = .none ∧ odd.busy = false := by decide

/-- Eight bytes up to the end of the readable range, and no byte anywhere. -/
theorem witness_CsumbFoldsItsBytes :
    (st top).units[(st top).sel]? = some top ∧ top.err = .none ∧ top.busy = false ∧ capOf plat = true ∧
      inRange plat top.addr top.len.toNat = true ∧ inRange plat 0xFFFFFFFFFFFFFFFF 0 = true := by decide

/-- One word at the end of the readable range. -/
theorem witness_CsumwFoldsItsWords :
    (st { top with len := 1 }).units[0]? = some { top with len := 1 } ∧ top.err = .none ∧ top.busy = false ∧
      capOf plat = true ∧ top.addr.toNat % 8 = 0 ∧ inRange plat top.addr (8 * (1 : Word32).toNat) = true := by decide

/-- A buffer with all three phases. -/
theorem witness_CsumFoldsTheWholeBuffer :
    (st odd).units[(st odd).sel]? = some odd ∧ odd.err = .none ∧ odd.busy = false ∧ capOf plat = true ∧
      inRange plat odd.addr odd.len.toNat = true := by decide

/-- Every command is admitted somewhere. -/
theorem witness_CommandsTakeExactlyTheirSteps :
    (st { top with len := 1 }).units[0]? = some { top with len := 1 } ∧ HzcUnit.ready { top with len := 1 } ∧
      ∀ i ∈ Instr.all, HzcUnit.admits plat { top with len := 1 } i := by
  refine ⟨rfl, ⟨rfl, rfl⟩, fun i _ => ⟨fun _ => rfl, fun _ => rfl, ?_⟩⟩
  cases i <;> rfl

/-- Two pairs of operands with the same s[31:8] and the same s[7:0] ^ b. -/
theorem witness_ByteFoldHasItsTableForm :
    (0x12345601 : Word32).extractLsb' 8 24 = (0x12345602 : Word32).extractLsb' 8 24 ∧
      (0x12345601 : Word32).setWidth 8 ^^^ (2 : Byte) = (0x12345602 : Word32).setWidth 8 ^^^ (1 : Byte) := by decide

theorem witness_WordRunsReplaceTheUpperHalf :
    (0xDEADBEEF00000001 : Word64).setWidth 32 = (0x0000000000000001 : Word64).setWidth 32 := by decide

/-- The short-buffer bound from both sides, the largest count, and an address that is 1 modulo 8. -/
theorem witness_PartitionMeetsItsInvariants :
    (∀ n ∈ [7, 8, 2 ^ 32 - 1], n < 2 ^ 32 ∧ ∃ t, t = partition 0x1001 n) ∧ (0x1001 : Word64).toNat % 8 = 1 :=
  ⟨fun n hn => ⟨by revert n hn; decide, _, rfl⟩, rfl⟩

theorem witness_LeadReachesTheNextBoundary : (7 < 8) ∧ (8 ≤ 8) := by decide

theorem witness_CsumAgreesWithCsumb :
    (st odd).units[(st odd).sel]? = some odd ∧ odd.ready ∧ odd.admits plat .csum :=
  ⟨rfl, ⟨rfl, rfl⟩, fun _ => rfl, nofun, rfl⟩

/-- A split in the middle of a buffer that ends where the readable range ends. -/
theorem witness_CsumComposesOverEverySplit :
    (st top).units[(st top).sel]? = some top ∧ top.err = .none ∧ top.busy = false ∧ capOf plat = true ∧
      3 + 5 < 2 ^ 32 ∧ inRange plat top.addr (3 + 5) = true := by decide

/-- The bytes 5, 6 at 0x1005 in one state and at 0x2008 in another, with seeds that differ in the upper half. -/
theorem witness_CsumDependsOnSeedAndBytesOnly :
    ∃ s s' : State, ∃ u u' : HzcUnit,
      s.units[s.sel]? = some u ∧ u.ready ∧ u.admits s.platform .csum ∧
      s'.units[s'.sel]? = some u' ∧ u'.ready ∧ u'.admits s'.platform .csum ∧
      u.seed.setWidth 32 = u'.seed.setWidth 32 ∧ u.seed ≠ u'.seed ∧ u.addr ≠ u'.addr ∧ u.len = u'.len ∧
      ∀ j, j < u.len.toNat → Memory.read s.mem (u.addr.toNat + j) = Memory.read s'.mem (u'.addr.toNat + j) :=
  ⟨st (idle 1 0x1005 2 0), { st (idle 0x100000001 0x2008 2 0) with mem := [(0x2008, 5), (0x2009, 6)] },
    idle 1 0x1005 2 0, idle 0x100000001 0x2008 2 0, rfl, ⟨rfl, rfl⟩, ⟨fun _ => rfl, nofun, rfl⟩, rfl, ⟨rfl, rfl⟩,
    ⟨fun _ => rfl, nofun, rfl⟩, rfl, by decide, by decide, rfl, by decide⟩

theorem witness_SequencerFoldsOneByte :
    (st busyB).units[0]? = some busyB ∧ busyB.busy = true ∧ busyB.q = ⟨.byte, 0x1000, 1 + 1⟩ :: [] ∧
      readableAt (st busyB).platform 0x1000 = true ∧ (0x1000 : Word64) ∉ busyB.raced := by decide

theorem witness_SequencerFoldsOneWord :
    (st busyW).units[0]? = some busyW ∧ busyW.busy = true ∧ busyW.q = ⟨.word, 0x1000, 0 + 1⟩ :: [] ∧
      (∀ j, j < 8 → readableAt (st busyW).platform (0x1000 + BitVec.ofNat 64 j) = true) ∧
      ∀ j, j < 8 → 0x1000 + BitVec.ofNat 64 j ∉ busyW.raced := by decide

/-- Each clause: an idle instance, a phase with nothing left, and a command with no phase left, for each code. -/
theorem witness_SequencerDropsEmptyPhasesAndIdles :
    (st top).units[0]? = some top ∧ top.busy = false ∧
      (st { busyB with q := [⟨.byte, 0x1002, 0⟩] }).units[0]? = some { busyB with q := [⟨.byte, 0x1002, 0⟩] } ∧
      busyB.busy = true ∧
      ∀ op ∈ ([1, 2, 3, 4, 5, 6, 7] : List (BitVec 4)), (st { lastStep with lOp := op }).units[0]? =
        some { lastStep with lOp := op } ∧ lastStep.busy = true ∧ lastStep.q = [] := by decide

theorem witness_SequencerKeepsOperandsAndLatches : ∃ t, (st busyB).seqStep 0 = .next t := ⟨_, rfl⟩

/-- A completion, where both results change. -/
theorem witness_ResultsChangeOnlyAtCompletion :
    ∃ t v, step (st lastStep) = .next t ∧ (st lastStep).units[0]? = some lastStep ∧ t.units[0]? = some v ∧
      v.result ≠ lastStep.result ∧ v.plead ≠ lastStep.plead := ⟨_, _, rfl, rfl, rfl, by decide, by decide⟩

/-- The invariant holds with a command in progress. -/
theorem busyB_inv : (owing busyB).Inv where
  someUnit := by decide
  unitInv u hu := by
    obtain rfl : u = busyB := List.mem_singleton.mp hu
    exact {
      busyNotDone := fun _ => rfl
      faultIdle := fun h => absurd rfl h
      idleEmpty := nofun
      threePhases := by decide
      latched := fun _ => ⟨.csumb, rfl⟩
      capable := fun _ _ _ _ => rfl
      admitted := fun _ => rfl
      inside := fun f hf => by
        obtain rfl := List.mem_singleton.mp hf
        exact .inr ⟨by decide, by decide, nofun⟩
      ordered := List.pairwise_singleton _ _
      container := fun _ _ _ _ => .inl (by decide)
      pBounds := by decide }
  memWf := by decide
  reads := nofun
  owed := fun k u hu _ => by
    cases k with
    | zero => injection hu with hu; subst hu; exact .inr (by decide)
    | succ k => cases hu
  raceKept := fun u hu h => by
    obtain rfl : u = busyB := List.mem_singleton.mp hu
    exact absurd rfl h

theorem witness_CommandsInProgressComplete :
    (owing busyB).Inv ∧ (owing busyB).units[0]? = some busyB ∧ busyB.busy = true := ⟨busyB_inv, rfl, rfl⟩

theorem witness_ResetInputRestoresEveryRegister :
    (stWith busyB [.resetInput 0]).sched = .resetInput 0 :: [] ∧ (stWith busyB [.resetInput 0]).units[0]? = some busyB ∧
      (stWith faulted [.resetInput 0]).units[0]? = some faulted := by decide

theorem witness_CtrlWriteResetsOnSrst :
    ∀ size ∈ [4, 8], (stWith busyB [.access 0 ⟨.write, 0x08, size, 1⟩]).sched =
        .access 0 ⟨.write, 0x08, size, 1⟩ :: [] ∧ (size = 4 ∨ size = 8) ∧
      (stWith busyB [.access 0 ⟨.write, 0x08, size, 1⟩]).units[0]? = some busyB := by decide

/-- A faulted instance, with an event that leaves ERR and one that resets it. -/
theorem witness_OnlyResetLeavesTheFaultState :
    (∃ t, step (stWith faulted [.access 0 (issueAccess 1)]) = .next t ∧ t.units[0]? = some faulted) ∧
      (∃ t, step (stWith faulted [.bus 0x40000008 .write 4 1]) = .next t ∧ t.units[0]? = some HzcUnit.reset) ∧
      faulted.err ≠ .none := ⟨⟨_, rfl, rfl⟩, ⟨_, rfl, rfl⟩, by decide⟩

theorem witness_FeatNeverChanges : ∃ t, step (stWith top [.resetInput 0]) = .next t := ⟨_, rfl⟩

/-- A step that is no store, and a store at the last address. -/
theorem witness_OnlyHostStoresChangeMemory :
    (∃ t, step (st busyB) = .next t) ∧ (∀ a b, (st busyB).sched.head? ≠ some (.store a b)) ∧
      (∃ t, step (stWith top [.store 0xFFFFFFFFFFFFFFFF 9]) = .next t) ∧
      (stWith top [.store 0xFFFFFFFFFFFFFFFF 9]).sched.head? = some (.store 0xFFFFFFFFFFFFFFFF 9) ∧
      Memory.wf (stWith top [.store 0xFFFFFFFFFFFFFFFF 9]).mem = true :=
  ⟨⟨_, rfl⟩, nofun, ⟨_, rfl⟩, rfl, rfl⟩

/-- The first and the last address of an owed range, and of the range of a command in progress, are in it, the
addresses beside them are not; and the invariant holds where a store meets a command in progress. -/
theorem witness_HostStoresIntoABusyRangeAreRaces :
    (∀ a, State.Inv { owing busyB with sched := [.store a 9] }) ∧ busyB ∈ (owing busyB).units ∧ busyB.busy = true ∧
      busyB.lOp = 4 ∧ busyB.lAddr.toNat ≤ (0x1001 : Word64).toNat ∧
      (0x1001 : Word64).toNat < busyB.lAddr.toNat + busyB.lLen.toNat ∧
      ([0x0FFF, 0x1000, 0x1001, 0x1002].map (Duty.holds ⟨0, 0x1000, 2⟩)) = [false, true, true, false] ∧
      ([0x0FFF, 0x1000, 0x1001, 0x1002].map fun a => (busyB.noteStore a).raced) = [[], [0x1000], [0x1001], []] ∧
      ([0x0FFF, 0x1000, 0x1007, 0x1008].map fun a => (busyW.noteStore a).raced) = [[], [0x1000], [0x1007], []] :=
  ⟨fun _ => ⟨busyB_inv.1, busyB_inv.2, busyB_inv.3, busyB_inv.4, busyB_inv.5, busyB_inv.6⟩, by decide⟩

theorem witness_HostRaceIsKept :
    ∃ t, step { stWith top [.resetInput 0] with hostRace := true } = .next t := ⟨_, rfl⟩

/-- Two instances, an event of the second and a command of the first. -/
theorem witness_InstancesDoNotInterfere :
    ∃ s : State, s.units = [busyB, top] ∧ (∃ t, step s = .next t) ∧ s.sched.head? = some (.resetInput 1) ∧
      eventUnit s.platform (.resetInput 1) = some 1 ∧ (∃ t, s.seqStep 0 = .next t) ∧ (∃ t, exec .probe s = .next t) ∧
      ({ s with units := [busyB, faulted] } : State).units[0]? = s.units[0]? :=
  ⟨{ st busyB with units := [busyB, top], sched := [.resetInput 1] }, rfl, ⟨_, rfl⟩, rfl, rfl, ⟨_, rfl⟩, ⟨_, rfl⟩, rfl⟩

theorem witness_OperandWritesSetTheirRegister : (st busyB).units[(st busyB).sel]? = some busyB := rfl

theorem witness_HalfWritesReachTheirHalf : (st faulted).units[(st faulted).sel]? = some faulted := rfl

/-- The first and last offsets of each reserved range. -/
theorem witness_ReservedOffsetsReadZeroAndIgnoreWrites :
    (st top).units[(st top).sel]? = some top ∧
      ∀ off ∈ ([0x0C, 0x24, 0x44, 0xF8, 0xFF] : List (BitVec 8)), off = 0x0C ∨ off = 0x24 ∨ 0x44 ≤ off.toNat := by decide

theorem witness_ReadOnlyRegistersIgnoreWrites :
    (st top).units[(st top).sel]? = some top ∧
      (∀ off ∈ ([0x04, 0x30, 0x34, 0x38, 0x3C, 0x40] : List (BitVec 8)), off = 0x04 ∨ off = 0x30 ∨ off = 0x34 ∨ off = 0x38 ∨
        off = 0x3C ∨ off = 0x40) ∧
      ∀ off ∈ ([0x30, 0x38, 0x40] : List (BitVec 8)), off = 0x30 ∨ off = 0x38 ∨ off = 0x40 := by decide

/-- A wrong size, and 4 and 8 bytes at the nearest offsets that are no multiple of the size. -/
theorem witness_IrregularAccessesReadZeroAndWriteNothing :
    (st top).units[(st top).sel]? = some top ∧ (2 ≠ 4 ∧ 2 ≠ 8) ∧ (0x11 : BitVec 8).toNat % 4 ≠ 0 ∧
      (0x04 : BitVec 8).toNat % 8 ≠ 0 := by decide

/-- A busy and an idle instance. -/
theorem witness_WindowReadsHaveNoSideEffect :
    (owing busyB).units[(owing busyB).sel]? = some busyB ∧ (owing top).units[(owing top).sel]? = some top ∧
      top.busy = false := ⟨rfl, rfl, rfl⟩

theorem witness_WindowReadsReturnTheRegisters : (st busyW).units[(st busyW).sel]? = some busyW := rfl

/-- An access, a seed write of `chain`, a sequencer's turn, an empty schedule with the second of two instances busy and
with an idle one, and the last byte of the second of two windows. -/
theorem witness_BusAccessesReachTheirWindow :
    (stWith top [.access 0 ⟨.read, 0x30, 8, 0⟩]).sched = .access 0 ⟨.read, 0x30, 8, 0⟩ :: [] ∧
      (stWith top [.chainSeed 0]).sched = .chainSeed 0 :: [] ∧
      (stWith busyB [.tick 0]).sched = .tick 0 :: [] ∧ (st top).sched = [] ∧ (∀ u ∈ (st top).units, u.busy = false) ∧
      ({ st top with units := [top, busyB] } : State).units[1]? = some busyB ∧ busyB.busy = true ∧ top.busy = false ∧
    (stWith top [.bus 0x400001FF .read 4 0]).sched = .bus 0x400001FF .read 4 0 :: [] ∧
      [(0x40000000 : Word64), 0x40000100][1]? = some 0x40000100 ∧ ((0x400001FF - 0x40000100 : Word64)).toNat < 256 ∧
      256 ≤ ((0x400001FF - 0x40000000 : Word64)).toNat := by decide

theorem witness_WaitEndsWhenBusyFalls :
    (∀ u ∈ [busyB, top], (stWith u [.wait 0]).sched = .wait 0 :: [] ∧ (stWith u [.wait 0]).units[0]? = some u) ∧
      busyB.busy = true ∧ top.busy = false := by decide

theorem witness_StepKeepsTheInvariant : (owing busyB).Inv ∧ ∃ t, step (owing busyB) = .next t :=
  ⟨busyB_inv, _, rfl⟩

theorem witness_SequencerStepsNeverFault : (owing busyB).Inv ∧ (owing busyB).units[0]? = some busyB :=
  ⟨busyB_inv, rfl⟩

/-- Each of the three outcomes: the last instance and the first that does not exist, the last address of the window
and the first beyond it. -/
theorem witness_StepsStopOnlyOnForeignEvents :
    (∀ es, State.Inv { owing busyB with sched := es }) ∧
      (∃ t, step { owing busyB with sched := [.resetInput 0] } = .next t) ∧
      step { owing busyB with sched := [.resetInput 1] } = .fault .noSuchUnit ∧
      (∃ t, step { owing busyB with sched := [.bus 0x400000FF .read 4 0] } = .next t) ∧
      step { owing busyB with sched := [.bus 0x40000100 .read 4 0] } = .refused .outsideWindows :=
  ⟨fun _ => ⟨busyB_inv.1, busyB_inv.2, busyB_inv.3, busyB_inv.4, busyB_inv.5, busyB_inv.6⟩, ⟨_, rfl⟩, rfl, ⟨_, rfl⟩, rfl⟩

/-- A range that is kept by a step, one that a read of STATUS ends, and one that a CMD write begins. -/
theorem witness_ReadRangesAreOwedUntilTheHostReadsIdle :
    (∃ t, step (owing busyB) = .next t ∧ ⟨0, 0x1000, 2⟩ ∈ t.duty) ∧
      (∃ t, step { owing top with sched := [.access 0 ⟨.read, 0x00, 8, 0⟩] } = .next t ∧ t.duty = []) ∧
      ∃ t, step (stWith top [.access 0 (issueAccess 4)]) = .next t ∧ t.duty = [⟨0, 0x7FF8, 8⟩] :=
  ⟨⟨_, rfl, by decide⟩, ⟨_, rfl, by decide⟩, ⟨_, rfl, by decide⟩⟩

end Sys2Proof.Tests
end

section
/-! SUPPORT. Facts about the partition, the window lanes and the completions that the proofs below share. -/

namespace Sys2Proof.Machine

/-! ## The partition (43_driver.md R150 to R154) -/

/-- An address plus an offset that stays in the buffer space does not wrap. -/
theorem toNat_add_ofNat {a : Word64} {n : Nat} (h : a.toNat + n < 2 ^ 64) :
    (a + BitVec.ofNat 64 n).toNat = a.toNat + n := by
  rw [BitVec.toNat_add, BitVec.toNat_ofNat]
  omega

/-- The leading count is the distance to the next multiple of 8. -/
theorem leadCount_eq (a : Word64) : leadCount a = (2 ^ 64 - a.toNat) % 8 := by
  have ha := a.isLt
  have hmask : ((8 - a : Word64) &&& 7).toNat = (8 - a : Word64).toNat % 2 ^ 3 := by
    rw [BitVec.toNat_and]
    exact Nat.and_two_pow_sub_one_eq_mod _ 3
  rw [leadCount, hmask, BitVec.toNat_sub, show (8 : Word64).toNat = 8 from rfl]
  omega

theorem leadCount_le (a : Word64) : leadCount a ≤ 7 := by
  rw [leadCount_eq]
  omega

theorem partition_lead_le (a : Word64) (n : Nat) : (partition a n).lead ≤ 7 := by
  unfold partition
  split
  · exact Nat.zero_le 7
  · exact leadCount_le a

theorem partition_trail_le (a : Word64) (n : Nat) : (partition a n).trail ≤ 7 := by
  unfold partition
  split
  · next h => exact Nat.le_of_lt_succ h
  · exact Nat.le_of_lt_succ (Nat.mod_lt _ (by decide))

theorem partition_words_le (a : Word64) (n : Nat) : (partition a n).words ≤ n / 8 := by
  unfold partition
  split
  · exact Nat.zero_le _
  · exact Nat.div_le_div_right (Nat.sub_le n _)

/-- The three parts make up the buffer. -/
theorem partition_sum (a : Word64) (n : Nat) :
    (partition a n).lead + 8 * (partition a n).words + (partition a n).trail = n := by
  have hl := leadCount_le a
  unfold partition
  split
  · simp
  · dsimp only
    omega

/-- Where there is a word, the words start at a multiple of 8. -/
theorem partition_aligned {a : Word64} {n : Nat} (h : (partition a n).words ≠ 0) :
    (a.toNat + (partition a n).lead) % 8 = 0 := by
  have ha := a.isLt
  have hl := leadCount_eq a
  unfold partition at h ⊢
  split at h
  · exact absurd rfl h
  · next hn =>
    rw [if_neg hn]
    dsimp only
    omega

/-! ## Halves of a 64-bit value -/

@[simp] theorem lo32_join64 (h l : Word32) : lo32 (join64 h l) = l := BitVec.setWidth_append_eq_right

@[simp] theorem hi32_join64 (h l : Word32) : hi32 (join64 h l) = h := BitVec.extractLsb'_append_eq_left

@[simp] theorem join64_hi32_lo32 (v : Word64) : join64 (hi32 v) (lo32 v) = v := by
  rw [join64, hi32, lo32, BitVec.setWidth_eq_extractLsb' (by decide),
    BitVec.extractLsb'_append_extractLsb'_eq_extractLsb' (start₁ := 0) (start₂ := 32) rfl]
  exact BitVec.extractLsb'_eq_self

theorem join64_zero (v : Word32) : join64 0 v = zext64 v := by
  rw [join64, zext64, BitVec.setWidth_eq_append (by decide)]
  rfl

@[simp] theorem hi32_zext64 (v : Word32) : hi32 (zext64 v) = 0 := by
  rw [← join64_zero, hi32_join64]

/-! ## Window writes, lane by lane (10_state.md R23, R26 to R30) -/

/-- A unit with its operand registers replaced: what a window write other than one of CMD or CTRL can do. -/
def HzcUnit.withOperands (u : HzcUnit) (seed addr data : Word64) (len : Word32) : HzcUnit :=
  { u with seed := seed, addr := addr, data := data, len := len }

/-- CTRL stands at offset 0x08 alone. -/
theorem laneAt_eq_ctrl {off : BitVec 8} (h : laneAt off = .ctrl) : off = 0x08 := by
  revert off
  decide

/-- The upper lane of an aligned 8-byte access is not CTRL. -/
theorem laneAt_add_four_ne_ctrl {off : BitVec 8} (h : off.toNat % 8 = 0) : laneAt (off + 4) ≠ .ctrl := by
  revert off
  decide

/-- A write of a lane with SRST = 0, or of a lane other than CTRL, replaces operand registers at most. -/
theorem HzcUnit.writeLane_operands (u : HzcUnit) {l : Lane} {v : Word32} (h : l = .ctrl → v.getLsbD 0 = false) :
    ∃ seed addr data len, u.writeLane l v = u.withOperands seed addr data len := by
  cases l
  case ctrl => exact ⟨_, _, _, _, by rw [HzcUnit.writeLane, h rfl]; rfl⟩
  all_goals exact ⟨_, _, _, _, rfl⟩

/-- A write of CTRL with SRST = 1 resets. -/
theorem HzcUnit.writeLane_ctrl (u : HzcUnit) {v : Word32} (h : v.getLsbD 0 = true) :
    u.writeLane .ctrl v = HzcUnit.reset := by
  rw [HzcUnit.writeLane, if_pos h, HzcUnit.softReset_eq]

/-- A 4-byte write at a multiple of 4 is a write of its lane. -/
theorem HzcUnit.writeWindow_four (u : HzcUnit) {off : BitVec 8} {v : Word64} (h : off.toNat % 4 = 0) :
    u.writeWindow ⟨.write, off, 4, v⟩ = u.writeLane (laneAt off) (lo32 v) := by
  simp [HzcUnit.writeWindow, Access.regular, h]

/-- An 8-byte write at a multiple of 8 is a write of its two lanes. -/
theorem HzcUnit.writeWindow_eight (u : HzcUnit) {off : BitVec 8} {v : Word64} (h : off.toNat % 8 = 0) :
    u.writeWindow ⟨.write, off, 8, v⟩ = (u.writeLane (laneAt off) (lo32 v)).writeLane (laneAt (off + 4)) (hi32 v) := by
  simp [HzcUnit.writeWindow, Access.regular, h]

theorem Access.regular_iff {a : Access} :
    a.regular = true ↔ (a.size = 4 ∨ a.size = 8) ∧ a.offset.toNat % a.size = 0 := by
  simp [Access.regular]

theorem lo32_getLsbD_zero (v : Word64) : (lo32 v).getLsbD 0 = v.getLsbD 0 := by
  simp [lo32]

/-- Everything a window write other than one of CMD can do: a reset by CTRL, or new operand registers. -/
theorem HzcUnit.writeWindow_cases (u : HzcUnit) (a : Access) :
    (a.offset = 0x08 ∧ a.value.getLsbD 0 = true ∧ u.writeWindow a = HzcUnit.reset) ∨
    ∃ seed addr data len, u.writeWindow a = u.withOperands seed addr data len := by
  unfold HzcUnit.writeWindow
  split
  · next hr =>
    by_cases hc : laneAt a.offset = .ctrl ∧ (lo32 a.value).getLsbD 0 = true
    · obtain ⟨hl, hv⟩ := hc
      refine .inl ⟨laneAt_eq_ctrl hl, (lo32_getLsbD_zero _).symm.trans hv, ?_⟩
      rw [hl, u.writeLane_ctrl hv, laneAt_eq_ctrl hl]
      split <;> rfl
    · obtain ⟨seed, addr, data, len, hlow⟩ := u.writeLane_operands (l := laneAt a.offset) (v := lo32 a.value)
        fun hl => by simpa [hl] using hc
      rw [hlow]
      split
      · next h8 =>
        have halign : a.offset.toNat % 8 = 0 := by simpa [h8] using (Access.regular_iff.mp hr).2
        obtain ⟨seed', addr', data', len', hhigh⟩ := (u.withOperands seed addr data len).writeLane_operands
          (v := hi32 a.value) fun hl => absurd hl (laneAt_add_four_ne_ctrl halign)
        exact .inr ⟨_, _, _, _, hhigh⟩
      · exact .inr ⟨_, _, _, _, rfl⟩
  · exact .inr ⟨_, _, _, _, rfl⟩

/-! ## Completions (10_state.md R31, R32, R36) -/

/-- Everything a completion does: BUSY falls, DONE rises, RESULT changes unless the command is PART, and PLEAD, PWORDS
and PTRAIL change only for CSUM and PART, where they become the partition. -/
theorem completeInstr_cases (p : Platform) (i : Instr) (u : HzcUnit) :
    ∃ r l w t, completeInstr p i u = { u with
        busy := false, done := true, result := r, plead := l, pwords := w, ptrail := t } ∧
      (r = u.result ∨ i ≠ .part) ∧
      (l = u.plead ∧ w = u.pwords ∧ t = u.ptrail ∨
        (i = .csum ∨ i = .part) ∧ l = BitVec.ofNat 32 u.split.lead ∧ w = BitVec.ofNat 32 u.split.words ∧
          t = BitVec.ofNat 32 u.split.trail) := by
  cases i
  case csum => exact ⟨_, _, _, _, rfl, .inr nofun, .inr ⟨.inl rfl, rfl, rfl, rfl⟩⟩
  case part => exact ⟨_, _, _, _, rfl, .inl rfl, .inr ⟨.inr rfl, rfl, rfl, rfl⟩⟩
  all_goals exact ⟨_, _, _, _, rfl, .inr nofun, .inl ⟨rfl, rfl, rfl⟩⟩

end Sys2Proof.Machine
end
section
/-! SUPPORT. What keeps the invariant of one unit. -/

namespace Sys2Proof.Machine

variable {p : Platform} {u : HzcUnit}

/-- A unit after reset meets the invariant. -/
theorem HzcUnit.reset_inv (p : Platform) : HzcUnit.reset.Inv p where
  busyNotDone := nofun
  faultIdle h := absurd rfl h
  idleEmpty _ := rfl
  threePhases := by decide
  latched := nofun
  capable := nofun
  admitted := nofun
  inside := nofun
  ordered := List.Pairwise.nil
  container := nofun
  pBounds := by decide

/-- The invariant does not speak of the operand registers. -/
theorem HzcUnit.Inv.withOperands (h : u.Inv p) (seed addr data : Word64) (len : Word32) :
    (u.withOperands seed addr data len).Inv p :=
  ⟨h.busyNotDone, h.faultIdle, h.idleEmpty, h.threePhases, h.latched, h.capable, h.admitted, h.inside, h.ordered,
    h.container, h.pBounds⟩

/-- The invariant of a unit does not speak of the bytes that raced. -/
theorem HzcUnit.Inv.noteStore (h : u.Inv p) (a : Word64) : (u.noteStore a).Inv p := by
  rcases u.noteStore_cases a with ⟨-, he⟩ | ⟨-, he⟩ <;> rw [he]
  · exact ⟨h.busyNotDone, h.faultIdle, h.idleEmpty, h.threePhases, h.latched, h.capable, h.admitted, h.inside,
      h.ordered, h.container, h.pBounds⟩
  · exact h

/-- An idle unit without phases meets the invariant when its partition registers are in bounds. -/
theorem HzcUnit.inv_of_idle (hb : u.busy = false) (hq : u.q = []) (hd : u.err ≠ .none → u.done = false)
    (hp : u.plead.toNat ≤ 7 ∧ u.ptrail.toNat ≤ 7 ∧ u.pwords.toNat ≤ (2 ^ 32 - 1) / 8) : u.Inv p where
  busyNotDone h := absurd (hb ▸ h) Bool.false_ne_true
  faultIdle h := ⟨hb, hd h⟩
  idleEmpty _ := hq
  threePhases := by simp [hq]
  latched h := absurd (hb ▸ h) Bool.false_ne_true
  capable h := absurd (hb ▸ h) Bool.false_ne_true
  admitted h := absurd (hb ▸ h) Bool.false_ne_true
  inside := by simp [hq]
  ordered := by simp [hq]
  container h := absurd (hb ▸ h) Bool.false_ne_true
  pBounds := hp

/-- Fault entry keeps the invariant. -/
theorem HzcUnit.Inv.raise (h : u.Inv p) (e : ErrCode) : (u.raise e).Inv p :=
  HzcUnit.inv_of_idle rfl rfl (fun _ => rfl) h.pBounds

/-- No fault state with a command in progress. -/
theorem HzcUnit.Inv.err_of_busy (h : u.Inv p) (hb : u.busy = true) : u.err = .none := by
  by_contra he
  exact Bool.noConfusion (hb.symm.trans (h.faultIdle he).1)

/-- The partition of a latched command fits its registers (10_state.md R32). -/
theorem HzcUnit.split_bounds (u : HzcUnit) :
    (BitVec.ofNat 32 u.split.lead).toNat ≤ 7 ∧ (BitVec.ofNat 32 u.split.trail).toNat ≤ 7 ∧
      (BitVec.ofNat 32 u.split.words).toNat ≤ (2 ^ 32 - 1) / 8 := by
  have hlead := partition_lead_le u.lAddr u.count
  have htrail := partition_trail_le u.lAddr u.count
  have hwords := partition_words_le u.lAddr u.count
  have hcount : u.count < 2 ^ 32 := u.lLen.isLt
  simp only [HzcUnit.split, BitVec.toNat_ofNat]
  omega

/-- A completion keeps the invariant. -/
theorem HzcUnit.Inv.complete (h : u.Inv p) (hb : u.busy = true) (hq : u.q = []) (i : Instr) :
    (completeInstr p i u).Inv p := by
  have herr := h.err_of_busy hb
  obtain ⟨r, l, w, t, he, -, ⟨rfl, rfl, rfl⟩ | ⟨-, rfl, rfl, rfl⟩⟩ := completeInstr_cases p i u <;> rw [he]
  · exact HzcUnit.inv_of_idle rfl hq (fun hf => absurd herr hf) h.pBounds
  · exact HzcUnit.inv_of_idle rfl hq (fun hf => absurd herr hf) u.split_bounds

/-! ### Phase steps -/

theorem inRange_le {a : Word64} {n : Nat} (h : inRange p a n = true) : a.toNat + n ≤ 2 ^ 64 := by
  rw [inRange, Bool.and_eq_true, decide_eq_true_iff] at h
  exact h.1

@[simp] theorem hi32_foldUnit (kind : PhaseKind) (acc v : Word64) : hi32 (foldUnit kind acc v) = 0 := by
  cases kind <;> exact hi32_zext64 _

/-- After one unit a phase that still has units left stands one unit further on and ends where it ended. -/
theorem Phase.advance_end {f : Phase} (hend : f.cursor.toNat + f.kind.width * f.remaining ≤ 2 ^ 64)
    (hleft : f.advance.remaining ≠ 0) :
    f.advance.cursor.toNat = f.cursor.toNat + f.kind.width ∧
      f.advance.cursor.toNat + f.kind.width * f.advance.remaining = f.cursor.toNat + f.kind.width * f.remaining := by
  have hleft : 1 < f.remaining := Nat.lt_of_sub_ne_zero hleft
  have hcursor : f.advance.cursor.toNat = f.cursor.toNat + f.kind.width := by
    refine toNat_add_ofNat ?_
    cases hk : f.kind <;> simp only [hk, PhaseKind.width] at hend ⊢ <;> omega
  refine ⟨hcursor, ?_⟩
  rw [hcursor, show f.advance.remaining = f.remaining - 1 from rfl, Nat.add_assoc, ← mul_one_add,
    Nat.add_sub_cancel' hleft.le]

/-- A phase with units left keeps inside the range of its command when one unit is taken (10_state.md R36). -/
theorem HzcUnit.holdsPhase_advance {f : Phase} (hf : u.holdsPhase f) (h0 : f.remaining ≠ 0)
    (hr : u.lAddr.toNat + u.extent ≤ 2 ^ 64) : u.holdsPhase f.advance := by
  obtain ⟨hlo, hhi, hal⟩ := hf.resolve_left h0
  by_cases hleft : f.advance.remaining = 0
  · exact .inl hleft
  · obtain ⟨hcursor, hend⟩ := Phase.advance_end (hhi.trans hr) hleft
    refine .inr ⟨by omega, hend.le.trans hhi, fun hk => ?_⟩
    have hk : f.kind = .word := hk
    have hc := hal hk
    rw [hcursor, hk, PhaseKind.width]
    omega

/-- Taking a unit of a phase leaves it before the phases it was before. -/
theorem Phase.before_advance {f g : Phase} (h : f.before g) (hend : f.cursor.toNat + f.kind.width * f.remaining ≤ 2 ^ 64)
    (h0 : f.remaining ≠ 0) : f.advance.before g := by
  by_cases hleft : f.advance.remaining = 0
  · exact .inl hleft
  · exact .inr ((h.resolve_left h0).imp_right fun hle => (Phase.advance_end hend hleft).2.le.trans hle)

/-- Dropping an empty phase keeps the invariant. -/
theorem HzcUnit.Inv.drop (h : u.Inv p) (hb : u.busy = true) {f : Phase} {rest : List Phase} (hq : u.q = f :: rest)
    (h0 : f.remaining = 0) : HzcUnit.Inv p { u with q := rest } where
  busyNotDone := h.busyNotDone
  faultIdle := h.faultIdle
  idleEmpty hi := Bool.noConfusion (hb.symm.trans hi)
  threePhases := by
    have := h.threePhases
    rw [hq, List.length_cons] at this
    exact Nat.le_of_succ_le this
  latched := h.latched
  capable := h.capable
  admitted := h.admitted
  inside g hg := h.inside g (hq ▸ List.mem_cons_of_mem f hg)
  ordered := (List.pairwise_cons.mp (hq ▸ h.ordered)).2
  container hb i hi hc := by
    refine (h.container hb i hi hc).imp_right fun ⟨hw, hacc, hphase⟩ => ⟨hw, hacc, .inr ?_⟩
    rcases hphase with hphase | hcount
    · obtain ⟨rfl, -⟩ := List.cons.inj (hq.symm.trans hphase)
      exact h0
    · exact hcount
  pBounds := h.pBounds

/-- Folding one unit keeps the invariant. -/
theorem HzcUnit.Inv.fold (h : u.Inv p) (hb : u.busy = true) {f : Phase} {rest : List Phase} (hq : u.q = f :: rest)
    (h0 : f.remaining ≠ 0) (v : Word64) :
    HzcUnit.Inv p { u with acc := foldUnit f.kind u.acc v, q := f.advance :: rest } := by
  have hrange := inRange_le (h.admitted hb)
  have hf : u.holdsPhase f := h.inside f (hq ▸ List.mem_cons_self)
  have hend := (hf.resolve_left h0).2.1.trans hrange
  obtain ⟨hfirst, hrest⟩ := List.pairwise_cons.mp (hq ▸ h.ordered)
  exact {
    busyNotDone := h.busyNotDone
    faultIdle := h.faultIdle
    idleEmpty := fun hi => Bool.noConfusion (hb.symm.trans hi)
    threePhases := by simpa [hq] using h.threePhases
    latched := h.latched
    capable := h.capable
    admitted := h.admitted
    inside := fun g hg => by
      rcases List.mem_cons.mp hg with rfl | hg
      · exact HzcUnit.holdsPhase_advance hf h0 hrange
      · exact h.inside g (hq ▸ List.mem_cons_of_mem f hg)
    ordered := List.pairwise_cons.mpr ⟨fun g hg => Phase.before_advance (hfirst g hg) hend h0, hrest⟩
    container := fun _ _ _ _ => .inl (hi32_foldUnit _ _ _)
    pBounds := h.pBounds }

/-! ### The CMD write -/

/-- What a check that passes has found out (60_exceptions.md R181). -/
theorem HzcUnit.admits_of_check {i : Instr} (h : checkOf i p u = none) : u.admits p i := by
  unfold HzcUnit.admits
  cases i
  case probe | part => exact ⟨nofun, nofun, inRange_zero p _⟩
  case fold8 | fold64 =>
    simp only [checkOf, capCheck] at h
    exact ⟨fun _ => by by_contra hc; simp [hc] at h, nofun, inRange_zero p _⟩
  case csumb | csum =>
    simp only [checkOf, byteRangeCheck] at h
    split_ifs at h with hc hr
    exact ⟨fun _ => by simpa using hc, nofun, hr⟩
  case csumw =>
    simp only [checkOf, wordRangeCheck] at h
    split_ifs at h with hc ha hr
    exact ⟨fun _ => by simpa using hc, fun _ => not_not.mp ha, hr⟩

/-- The read range of a unit that has just issued a command is that of its operand registers. -/
theorem HzcUnit.issue_extent (u : HzcUnit) (i : Instr) (acc : Word64) (q : List Phase) :
    (u.issue (opCode i) acc q).extent = extentOf i u.len.toNat := by
  rw [HzcUnit.extent, HzcUnit.issue_lOp, opInstr_opCode]
  rfl

/-- A phase of a command just issued, over the operand registers. -/
theorem HzcUnit.holdsPhase_issue {i : Instr} {acc : Word64} {q : List Phase} {f : Phase}
    (h : f.remaining ≠ 0 → u.addr.toNat ≤ f.cursor.toNat ∧
      f.cursor.toNat + f.kind.width * f.remaining ≤ u.addr.toNat + extentOf i u.len.toNat ∧
      (f.kind = .word → f.cursor.toNat % 8 = 0)) :
    (u.issue (opCode i) acc q).holdsPhase f := by
  rw [HzcUnit.holdsPhase, HzcUnit.issue_extent]
  exact (eq_or_ne f.remaining 0).imp_right h

/-- Issue gives a unit that meets the invariant, when the command is admitted and its phases lie in its range. -/
theorem HzcUnit.Inv.issue (h : u.Inv p) (he : u.err = .none) {i : Instr} (ha : u.admits p i) {acc : Word64}
    {q : List Phase} (hlen : q.length ≤ 3) (hin : ∀ f ∈ q, (u.issue (opCode i) acc q).holdsPhase f)
    (hord : q.Pairwise Phase.before)
    (hacc : usesCrc i = true →
      hi32 acc = 0 ∨ i = .csumw ∧ acc = u.seed ∧ q = [⟨.word, u.addr, u.len.toNat⟩]) :
    (u.issue (opCode i) acc q).Inv p where
  busyNotDone _ := rfl
  faultIdle hf := absurd he hf
  idleEmpty := nofun
  threePhases := hlen
  latched _ := ⟨i, opInstr_opCode i⟩
  capable _ j hj hc := by
    obtain rfl : i = j := Option.some.inj ((opInstr_opCode i).symm.trans hj)
    exact ha.1 hc
  admitted _ := by
    rw [HzcUnit.issue_extent]
    exact ha.2.2
  inside := hin
  ordered := hord
  container _ j hj hc := by
    obtain rfl : i = j := Option.some.inj ((opInstr_opCode i).symm.trans hj)
    exact (hacc hc).imp_right fun ⟨hi, ha, hq⟩ => ⟨hi, ha, .inl hq⟩
  pBounds := h.pBounds

/-- The three phases of CSUM lie in its range and are in address order (43_driver.md R157, 10_state.md R35). -/
theorem csumPhases_inside {a : Word64} {n : Nat} (hr : a.toNat + n ≤ 2 ^ 64) {f : Phase}
    (hf : f ∈ csumPhases a (partition a n)) (h0 : f.remaining ≠ 0) :
    a.toNat ≤ f.cursor.toNat ∧ f.cursor.toNat + f.kind.width * f.remaining ≤ a.toNat + n ∧
      (f.kind = .word → f.cursor.toNat % 8 = 0) := by
  have hsum := partition_sum a n
  have haligned := @partition_aligned a n
  generalize partition a n = t at hf hsum haligned
  rcases List.mem_cons.mp hf with rfl | hf
  · refine ⟨le_rfl, ?_, nofun⟩
    dsimp only [PhaseKind.width]
    omega
  rcases List.mem_cons.mp hf with rfl | hf
  · dsimp only [PhaseKind.width] at h0 ⊢
    rw [toNat_add_ofNat (by omega)]
    exact ⟨by omega, by omega, fun _ => haligned h0⟩
  · obtain rfl := List.mem_singleton.mp hf
    dsimp only [PhaseKind.width] at h0 ⊢
    have hwords : (a + BitVec.ofNat 64 t.lead).toNat = a.toNat + t.lead := toNat_add_ofNat (by omega)
    rw [toNat_add_ofNat (by omega), hwords]
    exact ⟨by omega, by omega, nofun⟩

theorem csumPhases_ordered {a : Word64} {n : Nat} (hr : a.toNat + n ≤ 2 ^ 64) :
    (csumPhases a (partition a n)).Pairwise Phase.before := by
  have hsum := partition_sum a n
  generalize partition a n = t at hsum
  have hwords : t.words ≠ 0 ∨ t.trail ≠ 0 → (a + BitVec.ofNat 64 t.lead).toNat = a.toNat + t.lead :=
    fun h => toNat_add_ofNat (by omega)
  have htrail : t.trail ≠ 0 → (a + BitVec.ofNat 64 t.lead + BitVec.ofNat 64 (8 * t.words)).toNat =
      a.toNat + t.lead + 8 * t.words := fun h => by
    rw [toNat_add_ofNat (by rw [hwords (.inr h)]; omega), hwords (.inr h)]
  simp only [csumPhases, List.pairwise_cons, List.mem_cons, List.not_mem_nil, or_false, forall_eq_or_imp, forall_eq,
    Phase.before, PhaseKind.width, false_imp_iff, implies_true, List.Pairwise.nil, and_true]
  omega

/-- An accepted command gives a unit that meets the invariant. -/
theorem HzcUnit.Inv.start (h : u.Inv p) (he : u.err = .none) {i : Instr} (hc : checkOf i p u = none) :
    (startOf i u).Inv p := by
  have ha := HzcUnit.admits_of_check hc
  cases i
  case probe | part => exact h.issue he ha (Nat.zero_le 3) nofun .nil nofun
  case fold8 | fold64 => exact h.issue he ha (Nat.zero_le 3) nofun .nil fun _ => .inl (hi32_zext64 _)
  case csumb =>
    refine h.issue he ha (by simp) (fun f hf => ?_) (List.pairwise_singleton _ _) fun _ => .inl (hi32_zext64 _)
    obtain rfl := List.mem_singleton.mp hf
    exact HzcUnit.holdsPhase_issue fun _ => ⟨le_rfl, by simp [PhaseKind.width, extentOf], nofun⟩
  case csumw =>
    refine h.issue he ha (by simp) (fun f hf => ?_) (List.pairwise_singleton _ _) fun _ => .inr ⟨rfl, rfl, rfl⟩
    obtain rfl := List.mem_singleton.mp hf
    exact HzcUnit.holdsPhase_issue fun _ => ⟨le_rfl, le_rfl, fun _ => ha.2.1 rfl⟩
  case csum =>
    have hr := inRange_le ha.2.2
    exact h.issue he ha (Nat.le_refl 3) (fun f hf => HzcUnit.holdsPhase_issue (csumPhases_inside hr hf))
      (csumPhases_ordered hr) fun _ => .inl (hi32_zext64 _)

end Sys2Proof.Machine
end
section
/-! SUPPORT. What keeps the invariant of the machine, one lemma per operation, and the proof that every step does. -/

namespace Sys2Proof.Machine

variable {s t : State}

/-- The host owes the read range of the command unit `k` has in progress, if `u` is its state (20_memory.md R62). -/
def HzcUnit.isOwed (duty : List Duty) (k : Nat) (u : HzcUnit) : Prop :=
  u.busy = true → u.extent = 0 ∨ ⟨k, u.lAddr, u.extent⟩ ∈ duty

/-- Two units found under a number before and after one of them was replaced: the replacement, or the same one. -/
theorem getElem?_set_cases {l : List HzcUnit} {k j : Nat} {u v w : HzcUnit} (hu : l[j]? = some u)
    (hw : (l.set k v)[j]? = some w) : j = k ∧ w = v ∨ j ≠ k ∧ w = u := by
  by_cases h : j = k
  · subst h
    obtain ⟨hj, -⟩ := List.getElem?_eq_some_iff.mp hu
    rw [List.getElem?_set_self hj] at hw
    exact .inl ⟨rfl, (Option.some.inj hw).symm⟩
  · rw [List.getElem?_set_ne (Ne.symm h), hu] at hw
    exact .inr ⟨h, (Option.some.inj hw).symm⟩

/-- The invariant does not depend on the schedule, the selection and the value the host read; what the host owes may
change to any list with the ranges of the commands in progress. -/
theorem State.Inv.ofDuty (h : s.Inv) {duty : List Duty}
    (howed : ∀ (k : Nat) (u : HzcUnit), s.units[k]? = some u → u.isOwed duty k)
    (rdata : Word64) (sched : List Event) (sel : Nat) :
    State.Inv { s with duty := duty, rdata := rdata, sched := sched, sel := sel } :=
  ⟨h.someUnit, h.unitInv, h.memWf, h.reads, howed, h.raceKept⟩

/-- Replacing one unit keeps the invariant. -/
theorem State.Inv.setUnit (h : s.Inv) {k : Nat} {v : HzcUnit} (hv : v.Inv s.platform) (howed : v.isOwed s.duty k)
    (hrace : v.raced ≠ [] → s.hostRace = true) : (s.setUnit k v).Inv where
  someUnit := by simpa using h.someUnit
  unitInv w hw := (State.mem_setUnit hw).elim (fun e => e ▸ hv) (h.unitInv w)
  memWf := h.memWf
  reads := h.reads
  owed j w hw := by
    have hj : j < s.units.length := by simpa using (List.getElem?_eq_some_iff.mp hw).1
    rcases getElem?_set_cases (List.getElem?_eq_getElem hj) hw with ⟨rfl, rfl⟩ | ⟨-, rfl⟩
    · exact howed
    · exact h.owed j _ (List.getElem?_eq_getElem hj)
  raceKept w hw := (State.mem_setUnit hw).elim (fun e => e ▸ hrace) (h.raceKept w)

/-- What the invariant says of one unit. -/
theorem State.Inv.unit (h : s.Inv) {k : Nat} {u : HzcUnit} (hu : s.units[k]? = some u) :
    u.Inv s.platform ∧ u.isOwed s.duty k ∧ (u.raced ≠ [] → s.hostRace = true) :=
  have hmem := List.mem_of_getElem? hu
  ⟨h.unitInv u hmem, h.owed k u hu, h.raceKept u hmem⟩

/-- Recording a proper read keeps the invariant. -/
theorem State.Inv.record (h : s.Inv) {e : ReadEvent} (he : e.proper s.platform) : (s.record e).Inv :=
  ⟨h.someUnit, h.unitInv, h.memWf, List.forall_mem_cons.mpr ⟨he, h.reads⟩, h.owed, h.raceKept⟩

/-- Owing one more range keeps the invariant. -/
theorem State.Inv.addDuty (h : s.Inv) (k : Nat) (a : Word64) (n : Nat) : (s.addDuty k a n).Inv where
  someUnit := by simpa using h.someUnit
  unitInv := by simpa using h.unitInv
  memWf := by simpa using h.memWf
  reads := by simpa using h.reads
  owed j u hu hb := by
    rw [State.addDuty_units] at hu
    exact (h.owed j u hu hb).imp_right fun hd => State.mem_addDuty.mpr (.inr hd)
  raceKept := by simpa using h.raceKept

/-- A CMD write keeps the invariant, when what it makes of its unit meets it. -/
theorem State.Inv.afterCmd (h : s.Inv) {k : Nat} {u : HzcUnit} (hu : s.units[k]? = some u)
    {check : Platform → HzcUnit → Option ErrCode} {start : HzcUnit → HzcUnit}
    (hs : u.err = .none → check s.platform u = none → (start u).Inv s.platform ∧ (start u).busy = true ∧
      (start u).raced = []) :
    (s.afterCmd k u (u.cmdWrite s.platform check start)).Inv := by
  obtain ⟨hinv, howed, hrace⟩ := h.unit hu
  obtain ⟨-, hc⟩ | ⟨-, -, hc⟩ | ⟨-, -, e, -, hc⟩ | ⟨he, hb, hn, hc⟩ := u.cmdWrite_cases s.platform check start <;>
    rw [hc]
  · have hsame : s.afterCmd k u u = s := by
      rw [State.afterCmd, if_neg fun hb => Bool.noConfusion (hb.1.symm.trans hb.2), State.setUnit_same hu]
    rwa [hsame]
  · rw [State.afterCmd_idle rfl]
    exact h.setUnit (hinv.raise .busy) nofun hrace
  · rw [State.afterCmd_idle rfl]
    exact h.setUnit (hinv.raise e) nofun hrace
  · obtain ⟨hv, hbusy, hraced⟩ := hs he hn
    rw [State.afterCmd_accepted hb hbusy, State.setUnit_addDuty]
    refine (h.addDuty k _ _).setUnit (by simpa using hv) (fun _ => ?_) fun hr => absurd hraced hr
    rw [State.mem_addDuty]
    exact (eq_or_ne _ 0).imp_right fun hn => .inl ⟨hn, rfl⟩

/-- What the host still owes after it has read BUSY = 0 at one unit covers the commands in progress. -/
theorem State.Inv.isOwed_filter (h : s.Inv) {k : Nat} {u : HzcUnit} (hu : s.units[k]? = some u) (hb : u.busy = false)
    (j : Nat) (v : HzcUnit) (hv : s.units[j]? = some v) : v.isOwed (s.duty.filter fun d => d.unit != k) j := by
  intro hbusy
  refine (h.owed j v hv hbusy).imp_right fun hd => List.mem_filter.mpr ⟨hd, ?_⟩
  rw [bne_iff_ne]
  rintro rfl
  obtain rfl : v = u := Option.some.inj (hv.symm.trans hu)
  exact Bool.noConfusion (hb.symm.trans hbusy)

/-- A host read keeps the invariant, whether or not it ends what the host owes. -/
theorem State.Inv.hostRead (h : s.Inv) {u : HzcUnit} (hu : s.units[s.sel]? = some u) (a : Access) :
    (s.hostRead u a).Inv := by
  rw [State.hostRead_eq]
  refine h.ofDuty (fun j v hv => ?_) _ s.sched s.sel
  split
  · next hb => exact h.isOwed_filter hu hb.2 j v hv
  · exact h.owed j v hv

/-- Every window access keeps the invariant. -/
theorem State.Inv.windowAccess (h : s.Inv) {a : Access} (hw : s.windowAccess a = .next t) : t.Inv := by
  obtain ⟨u, hu, ⟨i, -, -, rfl⟩ | ⟨_, -, -, rfl⟩ | ⟨-, -, rfl⟩ | ⟨-, -, rfl⟩⟩ := State.windowAccess_next hw
  · refine h.afterCmd hu fun he hc => ⟨(h.unit hu).1.start he hc, ?_⟩
    obtain ⟨acc, q, hs⟩ := startOf_eq_issue i u
    rw [hs]
    exact ⟨rfl, rfl⟩
  · exact h.afterCmd hu fun _ hc => by cases hc
  · obtain ⟨hinv, howed, hrace⟩ := h.unit hu
    obtain ⟨-, -, he⟩ | ⟨seed, addr, data, len, he⟩ := u.writeWindow_cases a <;> rw [he]
    · exact h.setUnit (HzcUnit.reset_inv _) nofun fun hr => absurd rfl hr
    · exact h.setUnit (hinv.withOperands seed addr data len) howed hrace
  · exact h.hostRead hu a

/-- A store that races with a command in progress falls in a range the host owes (20_memory.md R62). -/
theorem HzcUnit.isOwed.holds {duty : List Duty} {k : Nat} {u : HzcUnit} (h : u.isOwed duty k) {a : Word64}
    (ha : u.inReadRange a = true) : (duty.any fun d => d.holds a) = true := by
  simp only [HzcUnit.inReadRange, Bool.and_eq_true, decide_eq_true_iff] at ha
  obtain ⟨⟨hb, hlo⟩, hhi⟩ := ha
  have hd := (h hb).resolve_left (by omega)
  exact List.any_eq_true.mpr ⟨_, hd, by simp [Duty.holds, hlo, hhi]⟩

/-- A host store keeps the invariant. -/
theorem State.Inv.hostStore (h : s.Inv) (a : Word64) (b : Byte) : (s.hostStore a b).Inv where
  someUnit := by simpa [State.hostStore] using h.someUnit
  unitInv w hw := by
    obtain ⟨u, hu, rfl⟩ := List.mem_map.mp hw
    exact (h.unitInv u hu).noteStore a
  memWf := Memory.write_wf b a.isLt h.memWf
  reads := h.reads
  owed j w hw := by
    obtain ⟨u, hu, rfl⟩ := Option.map_eq_some_iff.mp ((List.getElem?_map ..).symm.trans hw)
    rcases u.noteStore_cases a with ⟨-, he⟩ | ⟨-, he⟩ <;> rw [he] <;> exact h.owed j u hu
  raceKept w hw hr := by
    obtain ⟨u, hu, rfl⟩ := List.mem_map.mp hw
    obtain ⟨k, hk⟩ := List.getElem?_of_mem hu
    obtain ⟨-, howed, hrace⟩ := h.unit hk
    rcases u.noteStore_cases a with ⟨ha, -⟩ | ⟨-, he⟩
    · exact Bool.or_eq_true_iff.mpr (.inr (howed.holds ha))
    · exact Bool.or_eq_true_iff.mpr (.inl (hrace (he ▸ hr)))

/-- The read of a phase step is proper (20_memory.md R51, R54). -/
theorem HzcUnit.holdsPhase.proper {p : Platform} {u : HzcUnit} {f : Phase} (hf : u.holdsPhase f) (h0 : f.remaining ≠ 0)
    (hr : ∀ x ∈ readAddresses f.cursor f.kind.width, readableAt p x = true) (k : Nat) (v : Word64) :
    ReadEvent.proper p ⟨k, f.cursor, f.kind.width, v⟩ := by
  refine ⟨?_, hr⟩
  cases hk : f.kind
  · exact .inl rfl
  · exact .inr ⟨rfl, (hf.resolve_left h0).2.2 hk⟩

/-- A sequencer step keeps the invariant. -/
theorem State.Inv.seqStep (h : s.Inv) {k : Nat} (hs : s.seqStep k = .next t) : t.Inv := by
  obtain ⟨u, hu, hcase⟩ := State.seqStep_next hs
  obtain ⟨hinv, howed, hrace⟩ := h.unit hu
  obtain ⟨-, rfl⟩ | ⟨hb, hq, i, -, rfl⟩ | ⟨hb, f, rest, hq, h0, rfl⟩ | ⟨hb, f, rest, hq, h0, hr, rfl⟩ := hcase
  · exact h
  · have hcomplete := hinv.complete hb hq i
    obtain ⟨_, _, _, _, he, -⟩ := completeInstr_cases s.platform i u
    rw [he] at hcomplete ⊢
    exact h.setUnit hcomplete nofun hrace
  · exact h.setUnit (hinv.drop hb hq h0) howed hrace
  · have hf : u.holdsPhase f := hinv.inside f (hq ▸ List.mem_cons_self)
    exact (h.record (hf.proper h0 hr k _)).setUnit (hinv.fold hb hq h0 _) howed hrace

/-- A pass of `wait` keeps the invariant. -/
theorem State.Inv.waitStep (h : s.Inv) {k : Nat} (hw : s.waitStep k = .next t) : t.Inv := by
  obtain ⟨u, hu, sched, rfl⟩ := State.waitStep_next hw
  refine h.ofDuty (fun j v hv => ?_) _ sched k
  split
  · next hb => exact h.isOwed_filter hu hb j v hv
  · exact h.owed j v hv

/-- Settles O57: one lemma per operation a step can be, over the invariant of its unit. -/
theorem stepKeepsTheInvariant : Obligations.StepKeepsTheInvariant := by
  intro s t h hstep
  obtain ⟨r, rfl, hcase⟩ := step_next hstep
  have hr : State.Inv { s with sched := s.sched.tail } := h.ofDuty h.owed s.rdata _ s.sel
  obtain ⟨k, a, hw⟩ | ⟨a, b, -, rfl⟩ | ⟨k, -, hreset⟩ | ⟨k, hs⟩ | ⟨k, -, hw⟩ | rfl := hcase
  · exact State.Inv.windowAccess (hr.ofDuty hr.owed s.rdata _ k) hw
  · exact hr.hostStore a b
  · obtain ⟨u, -, rfl⟩ := State.onUnit_next hreset
    exact hr.setUnit (HzcUnit.reset_inv _) nofun fun hr => absurd rfl hr
  · exact hr.seqStep hs
  · exact hr.waitStep hw
  · exact h

end Sys2Proof.Machine
end

section
/-! SUPPORT. What a sequencer step reads and folds, and the proofs of O31 to O34. -/

namespace Sys2Proof.Machine

/-- The low byte of a list of bytes is its first. -/
theorem leValue_cons_low (b : Byte) (bs : List Byte) : (leValue (b :: bs)).extractLsb' 0 8 = b := by
  ext i hi
  simp [leValue, hi, hi.trans (by decide : 8 < 64)]

/-- Every other byte of a list of at most eight is a byte of the rest. -/
theorem leValue_cons_high (b : Byte) (bs : List Byte) {j : Nat} (hj : j < 7) :
    (leValue (b :: bs)).extractLsb' (8 * (j + 1)) 8 = (leValue bs).extractLsb' (8 * j) 8 := by
  refine BitVec.eq_of_getLsbD_eq fun i hi => ?_
  have hlow : 8 * (j + 1) + i < 64 := by omega
  have hge : ¬8 * (j + 1) + i < 8 := by omega
  have hsub : 8 * (j + 1) + i - 8 = 8 * j + i := by omega
  have hb : b.getLsbD (8 * (j + 1) + i) = false := BitVec.getLsbD_of_ge _ _ (by omega)
  simp only [leValue, BitVec.getLsbD_extractLsb', BitVec.getLsbD_or, BitVec.getLsbD_shiftLeft, BitVec.getLsbD_setWidth,
    hlow, hge, hsub, hb, decide_true, decide_false, Bool.not_false, Bool.true_and, Bool.and_false, Bool.or_false]

/-- Byte `j` of a little-endian value is the byte with number `j` (20_memory.md R52). -/
theorem leValue_byte {bs : List Byte} (hlen : bs.length ≤ 8) {j : Nat} (hj : j < bs.length) :
    (leValue bs).extractLsb' (8 * j) 8 = bs[j] := by
  induction bs generalizing j with
  | nil => exact absurd hj (Nat.not_lt_zero j)
  | cons b bs ih =>
    rw [List.length_cons] at hlen hj
    cases j with
    | zero => exact leValue_cons_low b bs
    | succ j =>
      rw [leValue_cons_high b bs (by omega), ih (by omega) (by omega)]
      rfl

/-- Byte `j` of a read (20_memory.md R52). -/
theorem State.readValue_byte (s : State) (u : HzcUnit) (a : Word64) {n j : Nat} (hn : n ≤ 8) (hj : j < n) :
    (s.readValue u a n).extractLsb' (8 * j) 8 = s.fetchByte u j (a + BitVec.ofNat 64 j) := by
  rw [State.readValue, leValue_byte (by simpa using hn) (by simpa using hj)]
  simp

/-- A read of one byte. -/
theorem State.readValue_one (s : State) (u : HzcUnit) (a : Word64) :
    s.readValue u a 1 = (s.fetchByte u 0 a).setWidth 64 := by
  simp [State.readValue, leValue]

/-- A byte the host has not stored to is the one in memory. -/
theorem State.fetchByte_memory (s : State) {u : HzcUnit} {a : Word64} (h : a ∉ u.raced) (k : Nat) :
    s.fetchByte u k a = Memory.read s.mem a.toNat := by
  simp [State.fetchByte, h]

theorem mem_readAddresses {a x : Word64} {n : Nat} :
    x ∈ readAddresses a n ↔ ∃ j, j < n ∧ a + BitVec.ofNat 64 j = x := by
  simp [readAddresses]

/-- The fold of one byte. -/
theorem foldUnit_byte (acc : Word64) (b : Byte) :
    foldUnit .byte acc (b.setWidth 64) = (byteFold (acc.setWidth 32) b).setWidth 64 := by
  rw [foldUnit, BitVec.setWidth_setWidth_of_le b (by decide), BitVec.setWidth_eq]
  rfl

/-- Settles O31: the step is the model's fold of one unit of width 1. -/
theorem sequencerFoldsOneByte : Obligations.SequencerFoldsOneByte := by
  intro s k u c r rest hu hb hq hr
  refine ⟨s.fetchByte u 0 c, fun hc => s.fetchByte_memory hc 0, ?_⟩
  have hreadable : ∀ x ∈ readAddresses c 1, readableAt s.platform x = true := by
    intro x hx
    obtain ⟨j, hj, rfl⟩ := mem_readAddresses.mp hx
    obtain rfl : j = 0 := by omega
    rwa [BitVec.add_zero]
  rw [State.seqStep_fold hu hb hq (Nat.succ_ne_zero r) hreadable, ← foldUnit_byte, ← State.readValue_one]
  rfl

/-- Settles O32: the step is the model's fold of one unit of width 8, whose value is read byte by byte. -/
theorem sequencerFoldsOneWord : Obligations.SequencerFoldsOneWord := by
  intro s k u c r rest hu hb hq hr
  refine ⟨s.readValue u c 8, fun j hj hc => ?_, ?_⟩
  · rw [s.readValue_byte u c le_rfl hj, s.fetchByte_memory hc]
  · have hreadable : ∀ x ∈ readAddresses c 8, readableAt s.platform x = true := by
      intro x hx
      obtain ⟨j, hj, rfl⟩ := mem_readAddresses.mp hx
      exact hr j hj
    rw [State.seqStep_fold hu hb hq (Nat.succ_ne_zero r) hreadable]
    rfl

/-- The capability as a container, as PROBE reports it. -/
theorem ofBool_setWidth (b : Bool) : (BitVec.ofBool b).setWidth 64 = if b then 1 else 0 := by
  cases b <;> rfl

/-- Settles O33: one clause per law of a step that reads nothing; the completions code by code. -/
theorem sequencerDropsEmptyPhasesAndIdles : Obligations.SequencerDropsEmptyPhasesAndIdles := by
  intro s k u hu
  refine ⟨fun hb => by simp [State.seqStep, hu, hb], fun f rest hb hq h0 => State.seqStep_drop hu hb hq h0, ?_⟩
  rintro t hb hq rfl
  have hcomplete : ∀ i, u.lOp = opCode i → s.seqStep k = .next (s.setUnit k (completeInstr s.platform i u)) :=
    fun i hop => State.seqStep_complete hu hb hq (hop ▸ opInstr_opCode i)
  refine ⟨fun hop => ?_, fun hop => hcomplete .fold8 hop, fun hop => hcomplete .fold64 hop,
    fun hop => hcomplete .csumb hop, fun hop => hcomplete .csumw hop, fun hop => hcomplete .csum hop,
    fun hop => hcomplete .part hop⟩
  rw [hcomplete .probe hop, ← ofBool_setWidth]
  rfl

/-- The operand registers, ERR and the latches of a unit are as before (10_state.md R34). -/
def HzcUnit.keepsOperands (u v : HzcUnit) : Prop :=
  v.seed = u.seed ∧ v.addr = u.addr ∧ v.len = u.len ∧ v.data = u.data ∧ v.err = u.err ∧ v.lOp = u.lOp ∧
    v.lSeed = u.lSeed ∧ v.lAddr = u.lAddr ∧ v.lLen = u.lLen ∧ v.lData = u.lData

/-- A completion keeps the operand registers, ERR and the latches. -/
theorem completeInstr_keepsOperands (p : Platform) (i : Instr) (u : HzcUnit) :
    u.keepsOperands (completeInstr p i u) := by
  obtain ⟨_, _, _, _, he, -⟩ := completeInstr_cases p i u
  rw [he]
  exact ⟨rfl, rfl, rfl, rfl, rfl, rfl, rfl, rfl, rfl, rfl⟩

/-- New ACC and Q keep the operand registers, ERR and the latches. -/
theorem HzcUnit.keepsOperands_fold (u : HzcUnit) (acc : Word64) (q : List Phase) :
    u.keepsOperands { u with acc := acc, q := q } :=
  ⟨rfl, rfl, rfl, rfl, rfl, rfl, rfl, rfl, rfl, rfl⟩

/-- A sequencer step may record a read, and puts back its unit with operand registers, ERR and latches as before. -/
theorem State.seqStep_frame {s t : State} {k : Nat} (h : s.seqStep k = .next t) :
    ∃ u v history, s.units[k]? = some u ∧ u.keepsOperands v ∧
      t = State.setUnit { s with history := history } k v := by
  obtain ⟨u, hu, ⟨-, rfl⟩ | ⟨-, -, i, -, rfl⟩ | ⟨-, f, rest, -, -, rfl⟩ | ⟨-, f, rest, -, -, -, rfl⟩⟩ :=
    State.seqStep_next h
  · exact ⟨u, u, t.history, hu, u.keepsOperands_fold u.acc u.q, (State.setUnit_same hu).symm⟩
  · exact ⟨u, _, s.history, hu, completeInstr_keepsOperands _ i u, rfl⟩
  · exact ⟨u, _, s.history, hu, u.keepsOperands_fold u.acc rest, rfl⟩
  · exact ⟨u, _, _, hu, u.keepsOperands_fold _ _, rfl⟩

/-- Settles O34, from the frame of a sequencer step. -/
theorem sequencerKeepsOperandsAndLatches : Obligations.SequencerKeepsOperandsAndLatches := by
  intro s t k h
  obtain ⟨u, v, history, hu, hkeep, rfl⟩ := State.seqStep_frame h
  refine ⟨rfl, rfl, rfl, rfl, rfl, rfl, rfl, List.length_set, fun j w w' hw hw' => ?_⟩
  obtain ⟨rfl, rfl⟩ | ⟨-, rfl⟩ := getElem?_set_cases hw hw'
  · obtain rfl : w = u := Option.some.inj (hw.symm.trans hu)
    obtain ⟨hseed, haddr, hlen, hdata, herr, hop, hlseed, hladdr, hllen, hldata⟩ := hkeep
    exact ⟨hseed, haddr, hlen, hdata, herr, hop, hlseed, hladdr, hllen, hldata, fun hj => absurd rfl hj⟩
  · exact ⟨rfl, rfl, rfl, rfl, rfl, rfl, rfl, rfl, rfl, rfl, fun _ => rfl⟩

end Sys2Proof.Machine
end

section
/-! SUPPORT. What a step can make of one unit, said once, and the proofs of O35, O40 and O41. -/

namespace Sys2Proof.Machine

variable {s t : State} {k : Nat} {u v : HzcUnit}

/-- The next event is a reset of unit `k`: its reset input, or a write of CTRL of its window with SRST = 1
(70_reset_and_hazards.md R200). -/
def State.resets (s : State) (k : Nat) : Prop :=
  s.sched.head? = some (.resetInput k) ∨
    (∃ size value, s.sched.head? = some (.access k ⟨.write, 0x08, size, value⟩) ∧ value.getLsbD 0 = true) ∨
    ∃ a size value, s.sched.head? = some (.bus a .write size value) ∧ value.getLsbD 0 = true ∧
      resolveBus s.platform a = some (k, 0x08)

/-- What one step can make of a unit `u`, on platform `p`; `mayReset` says when it can reset it. -/
inductive HzcUnit.Moves (p : Platform) (mayReset : Prop) (u : HzcUnit) : HzcUnit → Prop
  | same : Moves p mayReset u u
  | command (i : Instr) : Moves p mayReset u (u.cmdWrite p (checkOf i) (startOf i))
  | illegal : Moves p mayReset u (u.cmdWrite p badopCheck id)
  | operands (seed addr data : Word64) (len : Word32) : Moves p mayReset u (u.withOperands seed addr data len)
  | reset : mayReset → Moves p mayReset u HzcUnit.reset
  | raced (a : Word64) : Moves p mayReset u (u.noteStore a)
  | complete (i : Instr) : u.busy = true → u.q = [] → opInstr u.lOp = some i →
      Moves p mayReset u (completeInstr p i u)
  | phase (acc : Word64) (q : List Phase) : Moves p mayReset u { u with acc := acc, q := q }

/-- Where unit `j` alone is replaced, unit `k` makes the move of that unit, or none. -/
theorem HzcUnit.Moves.of_set {p : Platform} {mayReset : Prop} {j : Nat} {w x : HzcUnit} (hu : s.units[k]? = some u)
    (hw : s.units[j]? = some w) (hv : (s.units.set j x)[k]? = some v) (hm : k = j → w.Moves p mayReset x) :
    u.Moves p mayReset v := by
  obtain ⟨rfl, rfl⟩ | ⟨-, rfl⟩ := getElem?_set_cases hu hv
  · obtain rfl : w = u := Option.some.inj (hw.symm.trans hu)
    exact hm rfl
  · exact .same

/-- What a window access can make of a unit. -/
theorem State.windowAccess_moves {a : Access} {mayReset : Prop} (h : s.windowAccess a = .next t)
    (hu : s.units[k]? = some u) (hv : t.units[k]? = some v)
    (hreset : k = s.sel → a.dir = .write → a.offset = 0x08 → a.value.getLsbD 0 = true → mayReset) :
    u.Moves s.platform mayReset v := by
  obtain ⟨w, hw, ⟨i, -, -, rfl⟩ | ⟨_, -, -, rfl⟩ | ⟨-, hd, rfl⟩ | ⟨-, -, rfl⟩⟩ := State.windowAccess_next h
  · rw [State.afterCmd_units] at hv
    exact .of_set hu hw hv fun _ => .command i
  · rw [State.afterCmd_units] at hv
    exact .of_set hu hw hv fun _ => .illegal
  · refine .of_set hu hw hv fun hk => ?_
    obtain ⟨hoff, hval, he⟩ | ⟨seed, addr, data, len, he⟩ := w.writeWindow_cases a <;> rw [he]
    · exact .reset (hreset hk hd hoff hval)
    · exact .operands seed addr data len
  · rw [State.hostRead_units, hu] at hv
    exact Option.some.inj hv ▸ .same

/-- What a sequencer step can make of a unit. -/
theorem State.seqStep_moves {j : Nat} {mayReset : Prop} (h : s.seqStep j = .next t) (hu : s.units[k]? = some u)
    (hv : t.units[k]? = some v) : u.Moves s.platform mayReset v := by
  obtain ⟨w, hw, ⟨-, rfl⟩ | ⟨hb, hq, i, hi, rfl⟩ | ⟨-, f, rest, -, -, rfl⟩ | ⟨-, f, rest, -, -, -, rfl⟩⟩ :=
    State.seqStep_next h
  · exact Option.some.inj (hu.symm.trans hv) ▸ .same
  · exact .of_set hu hw hv fun _ => .complete i hb hq hi
  · exact .of_set hu hw hv fun _ => .phase w.acc rest
  · exact .of_set hu hw hv fun _ => .phase _ _

/-- What a step can make of a unit, event by event. -/
theorem step_moves (h : step s = .next t) (hu : s.units[k]? = some u) (hv : t.units[k]? = some v) :
    u.Moves s.platform (s.resets k) v := by
  cases hs : s.sched with
  | nil =>
    rw [step_quiet hs] at h
    obtain rfl | ⟨j, hj⟩ := State.quietStep_next h
    · exact Option.some.inj (hu.symm.trans hv) ▸ .same
    · exact State.seqStep_moves hj hu hv
  | cons e rest =>
    have hhead : s.sched.head? = some e := by rw [hs]; rfl
    rw [step_scheduled hs] at h
    cases e with
    | access j a =>
      obtain ⟨dir, off, size, value⟩ := a
      refine State.windowAccess_moves (s := State.select { s with sched := rest } j) h hu hv ?_
      rintro rfl rfl rfl hval
      exact .inr (.inl ⟨size, value, hhead, hval⟩)
    | bus address dir size value =>
      simp only [State.event] at h
      split at h
      · next j off hres =>
        refine State.windowAccess_moves (s := State.select { s with sched := rest } j) h hu hv ?_
        rintro rfl rfl rfl hval
        exact .inr (.inr ⟨address, size, value, hhead, hval, hres⟩)
      · cases h
    | store a b =>
      injection h with h
      subst h
      obtain ⟨w, hw, rfl⟩ := Option.map_eq_some_iff.mp ((List.getElem?_map ..).symm.trans hv)
      obtain rfl : w = u := Option.some.inj (hw.symm.trans hu)
      exact .raced a
    | resetInput j =>
      obtain ⟨w, hw, rfl⟩ := State.onUnit_next h
      exact .of_set hu hw hv fun hk => .reset (.inl (hk ▸ hhead))
    | tick j => exact State.seqStep_moves (s := { s with sched := rest }) h hu hv
    | wait j =>
      obtain ⟨w, -, sched, rfl⟩ := State.waitStep_next h
      exact Option.some.inj (hu.symm.trans hv) ▸ .same
    | chainSeed j =>
      exact State.windowAccess_moves (s := State.select { s with sched := rest } j) (a := chainWrite s.rdata) h hu hv
        fun _ _ hoff => absurd hoff (show (0x10 : BitVec 8) ≠ 0x08 by decide)

/-! ## The results (10_state.md R31, R32) -/

/-- RESULT, PLEAD, PWORDS and PTRAIL of a unit are as before. -/
def HzcUnit.keepsResults (u v : HzcUnit) : Prop :=
  v.result = u.result ∧ v.plead = u.plead ∧ v.pwords = u.pwords ∧ v.ptrail = u.ptrail

/-- A CMD write keeps the results, whatever it makes of the command. -/
theorem HzcUnit.cmdWrite_keepsResults (p : Platform) (check : Platform → HzcUnit → Option ErrCode)
    {start : HzcUnit → HzcUnit} (hs : u.keepsResults (start u)) : u.keepsResults (u.cmdWrite p check start) := by
  obtain ⟨-, hc⟩ | ⟨-, -, hc⟩ | ⟨-, -, e, -, hc⟩ | ⟨-, -, -, hc⟩ := u.cmdWrite_cases p check start <;> rw [hc]
  · exact ⟨rfl, rfl, rfl, rfl⟩
  · exact ⟨rfl, rfl, rfl, rfl⟩
  · exact ⟨rfl, rfl, rfl, rfl⟩
  · exact hs

/-- Issue keeps the results. -/
theorem startOf_keepsResults (i : Instr) (u : HzcUnit) : u.keepsResults (startOf i u) := by
  obtain ⟨acc, q, hs⟩ := startOf_eq_issue i u
  rw [hs]
  exact ⟨rfl, rfl, rfl, rfl⟩

/-- A code that selects a command is the code of that command (30_encoding.md R72). -/
theorem eq_opCode_of_opInstr {op : BitVec 4} {i : Instr} (h : opInstr op = some i) : op = opCode i := by
  revert op
  cases i <;> decide

/-- A move that is neither a reset nor a completion keeps the results. -/
theorem HzcUnit.Moves.results {p : Platform} {mayReset : Prop} (h : u.Moves p mayReset v) :
    v = HzcUnit.reset ∨ u.keepsResults v ∨
      ∃ i, u.busy = true ∧ u.q = [] ∧ opInstr u.lOp = some i ∧ v = completeInstr p i u := by
  cases h with
  | same => exact .inr (.inl ⟨rfl, rfl, rfl, rfl⟩)
  | command i => exact .inr (.inl (HzcUnit.cmdWrite_keepsResults p _ (startOf_keepsResults i u)))
  | illegal => exact .inr (.inl (HzcUnit.cmdWrite_keepsResults p _ ⟨rfl, rfl, rfl, rfl⟩))
  | operands => exact .inr (.inl ⟨rfl, rfl, rfl, rfl⟩)
  | reset => exact .inl rfl
  | raced a =>
    rcases u.noteStore_cases a with ⟨-, he⟩ | ⟨-, he⟩ <;> rw [he] <;> exact .inr (.inl ⟨rfl, rfl, rfl, rfl⟩)
  | complete i hb hq hi => exact .inr (.inr ⟨i, hb, hq, hi, rfl⟩)
  | phase => exact .inr (.inl ⟨rfl, rfl, rfl, rfl⟩)

/-- Settles O35: the one move besides a reset that changes a result is a completion. -/
theorem resultsChangeOnlyAtCompletion : Obligations.ResultsChangeOnlyAtCompletion := by
  intro s t k u v h hu hv
  obtain hreset | ⟨hresult, hsplit⟩ | ⟨i, hb, hq, hi, rfl⟩ := (step_moves h hu hv).results
  · exact .inl hreset
  · exact .inr ⟨.inl hresult, .inl hsplit⟩
  · have hop := eq_opCode_of_opInstr hi
    obtain ⟨r, l, w, p, he, hresult, hsplit⟩ := completeInstr_cases s.platform i u
    rw [he]
    refine .inr ⟨hresult.imp_right fun hpart => ⟨hb, hq, rfl, rfl, fun h7 => hpart ?_⟩,
      hsplit.imp_right fun ⟨hi, _⟩ => ⟨hb, hq, rfl, rfl, hi.imp (fun hi => ?_) fun hi => ?_⟩⟩
    · exact (Option.some.inj (hi.symm.trans (congrArg opInstr h7)))
    · rw [hop, hi]; rfl
    · rw [hop, hi]; rfl

/-! ## The fault state (10_state.md R38) -/

/-- While ERR is set a CMD write is ignored (60_exceptions.md R184). -/
theorem HzcUnit.cmdWrite_ignored (p : Platform) (check : Platform → HzcUnit → Option ErrCode)
    (start : HzcUnit → HzcUnit) (he : u.err ≠ .none) : u.cmdWrite p check start = u := by
  rw [HzcUnit.cmdWrite, if_pos he]

/-- From the fault state a move keeps ERR and does not raise BUSY, or is a reset. -/
theorem HzcUnit.Moves.faulted {p : Platform} {mayReset : Prop} (h : u.Moves p mayReset v) (he : u.err ≠ .none) :
    (v.err = u.err ∧ (u.busy = false → v.busy = false)) ∨ (v = HzcUnit.reset ∧ mayReset) := by
  cases h with
  | same => exact .inl ⟨rfl, id⟩
  | command i =>
    rw [HzcUnit.cmdWrite_ignored p _ _ he]
    exact .inl ⟨rfl, id⟩
  | illegal =>
    rw [HzcUnit.cmdWrite_ignored p _ _ he]
    exact .inl ⟨rfl, id⟩
  | operands => exact .inl ⟨rfl, id⟩
  | reset hr => exact .inr ⟨rfl, hr⟩
  | raced a => rcases u.noteStore_cases a with ⟨-, hn⟩ | ⟨-, hn⟩ <;> rw [hn] <;> exact .inl ⟨rfl, id⟩
  | complete i =>
    obtain ⟨_, _, _, _, hc, -⟩ := completeInstr_cases p i u
    rw [hc]
    exact .inl ⟨rfl, fun _ => rfl⟩
  | phase => exact .inl ⟨rfl, id⟩

/-- Settles O40: of the moves of a unit in the fault state only the reset changes ERR, and its event is one of the
three of `State.resets`. -/
theorem onlyResetLeavesTheFaultState : Obligations.OnlyResetLeavesTheFaultState :=
  fun _ _ _ _ _ h hu hv he => (step_moves h hu hv).faulted he

/-! ## FEAT (10_state.md R37) -/

/-- A window access keeps the platform. -/
theorem State.windowAccess_platform {a : Access} (h : s.windowAccess a = .next t) : t.platform = s.platform := by
  obtain ⟨u, -, ⟨i, -, -, rfl⟩ | ⟨_, -, -, rfl⟩ | ⟨-, -, rfl⟩ | ⟨-, -, rfl⟩⟩ := State.windowAccess_next h
  · exact State.afterCmd_platform ..
  · exact State.afterCmd_platform ..
  · rfl
  · exact State.hostRead_platform ..

/-- No step changes the platform. -/
theorem step_platform (h : step s = .next t) : t.platform = s.platform := by
  obtain ⟨r, rfl, ⟨k, a, hw⟩ | ⟨a, b, -, rfl⟩ | ⟨k, -, hreset⟩ | ⟨k, hs⟩ | ⟨k, -, hw⟩ | rfl⟩ := step_next h
  · exact State.windowAccess_platform (s := State.select { s with sched := s.sched.tail } k) hw
  · rfl
  · obtain ⟨u, -, rfl⟩ := State.onUnit_next hreset
    rfl
  · obtain ⟨_, _, _, -, -, rfl⟩ := State.seqStep_frame hs
    rfl
  · obtain ⟨_, -, _, rfl⟩ := State.waitStep_next hw
    rfl
  · rfl

end Sys2Proof.Machine
end

section
/-! SUPPORT. The fields of STATUS, the accesses of the register window and the steps whose event is such an access: the
proofs of O41 and O42, of O47 to O53, and of O5, O38 and O54. -/

namespace Sys2Proof.Machine

/-! ## STATUS (10_state.md R25, R37) -/

/-- Settles O42: STATUS is made of three bits and six error codes, so it is one of 48 words. -/
theorem statusShowsItsFields : Obligations.StatusShowsItsFields := by
  intro p u
  unfold HzcUnit.status
  generalize capOf p = cap
  generalize u.err = err
  generalize u.done = done
  generalize u.busy = busy
  revert cap done busy
  cases err <;> decide

/-- Settles O41: FEAT is a field of STATUS, and every operation keeps the platform. -/
theorem featNeverChanges : Obligations.FeatNeverChanges := by
  refine ⟨fun p u => ?_, fun s t h => step_platform h⟩
  obtain ⟨-, -, -, -, hfeat, -⟩ := statusShowsItsFields p u
  exact hfeat

/-! ## One rule per kind of window access (10_state.md R23) -/

section Access
variable {s : State} {u : HzcUnit} {off : BitVec 8} {size : Nat} {value : Word64}

/-- A window write that does not reach CMD puts the unit back as `writeWindow` gives it. -/
theorem State.windowAccess_write (h : s.units[s.sel]? = some u) (hc : Access.writesCmd ⟨.write, off, size, value⟩ = false) :
    s.windowAccess ⟨.write, off, size, value⟩ = .next (s.setUnit s.sel (u.writeWindow ⟨.write, off, size, value⟩)) := by
  rw [State.windowAccess, hc]
  exact State.onUnit_some h _

/-- A window read answers with what `hostRead` gives. -/
theorem State.windowAccess_read (h : s.units[s.sel]? = some u) :
    s.windowAccess ⟨.read, off, size, value⟩ = .next (s.hostRead u ⟨.read, off, size, value⟩) := by
  simp [State.windowAccess, Access.writesCmd, h]

/-- A write of CMD, by itself or as the low half of 8 bytes. -/
theorem Access.writesCmd_iff :
    Access.writesCmd ⟨.write, off, size, value⟩ = true ↔ (size = 4 ∨ size = 8) ∧ off = 0 := by
  simp only [Access.writesCmd, Bool.and_eq_true, beq_iff_eq, Access.regular_iff]
  refine ⟨fun ⟨⟨hs, _⟩, ho⟩ => ⟨hs, ho⟩, fun ⟨hs, ho⟩ => ⟨⟨hs, ?_⟩, ho⟩⟩
  rw [ho]
  exact Nat.zero_mod size

/-- A write at another offset than that of CMD. -/
theorem Access.writesCmd_of_ne (h : off ≠ 0) : Access.writesCmd ⟨.write, off, size, value⟩ = false := by
  rw [← Bool.not_eq_true, Access.writesCmd_iff]
  exact fun hc => h hc.2

/-- A read that returns STATUS, by itself or as the upper half of 8 bytes. -/
theorem Access.readsStatus_iff :
    Access.readsStatus ⟨.read, off, size, value⟩ = true ↔ off = 0x04 ∧ size = 4 ∨ off = 0x00 ∧ size = 8 := by
  simp only [Access.readsStatus, Bool.and_eq_true, Bool.or_eq_true, beq_iff_eq, Access.regular_iff]
  constructor
  · rintro ⟨⟨rfl | rfl, hal⟩, rfl | ⟨rfl, hs⟩⟩
    · exact .inl ⟨rfl, rfl⟩
    · exact absurd hs (by decide)
    · exact absurd hal (by decide)
    · exact .inr ⟨rfl, rfl⟩
  · rintro (⟨rfl, rfl⟩ | ⟨rfl, rfl⟩)
    · exact ⟨⟨.inl rfl, rfl⟩, .inl rfl⟩
    · exact ⟨⟨.inr rfl, rfl⟩, .inr ⟨rfl, rfl⟩⟩

/-- A read that does not return STATUS gives the host its value and does nothing else. -/
theorem State.windowAccess_read_value (h : s.units[s.sel]? = some u)
    (hr : ¬(off = 0x04 ∧ size = 4 ∨ off = 0x00 ∧ size = 8)) :
    s.windowAccess ⟨.read, off, size, value⟩ =
      .next { s with rdata := u.readWindow s.platform ⟨.read, off, size, value⟩ } := by
  rw [State.windowAccess_read h, State.hostRead_eq, if_neg fun hd => hr (Access.readsStatus_iff.mp hd.1)]

/-- Settles O53: `hostRead` written out, with the reads of STATUS named by offset and size. -/
theorem windowReadsHaveNoSideEffect : Obligations.WindowReadsHaveNoSideEffect := by
  intro s u off size value h
  rw [State.windowAccess_read h, State.hostRead_eq]
  simp only [Access.readsStatus_iff]

/-! ## Writes of operand registers -/

/-- A 4-byte write of a lane other than CMD. -/
theorem State.windowAccess_write_four (h : s.units[s.sel]? = some u) (h0 : off ≠ 0) (hal : off.toNat % 4 = 0) :
    s.windowAccess ⟨.write, off, 4, value⟩ = .next (s.setUnit s.sel (u.writeLane (laneAt off) (lo32 value))) := by
  rw [State.windowAccess_write h (Access.writesCmd_of_ne h0), u.writeWindow_four hal]

/-- An 8-byte write of two lanes other than CMD. -/
theorem State.windowAccess_write_eight (h : s.units[s.sel]? = some u) (h0 : off ≠ 0) (hal : off.toNat % 8 = 0) :
    s.windowAccess ⟨.write, off, 8, value⟩ = .next (s.setUnit s.sel
      ((u.writeLane (laneAt off) (lo32 value)).writeLane (laneAt (off + 4)) (hi32 value))) := by
  rw [State.windowAccess_write h (Access.writesCmd_of_ne h0), u.writeWindow_eight hal]

/-- Both halves of SEED. -/
theorem HzcUnit.writeLane_seed (u : HzcUnit) (v : Word64) :
    (u.writeLane .seedLo (lo32 v)).writeLane .seedHi (hi32 v) = { u with seed := v } := by
  simp [HzcUnit.writeLane]

/-- Both halves of ADDR. -/
theorem HzcUnit.writeLane_addr (u : HzcUnit) (v : Word64) :
    (u.writeLane .addrLo (lo32 v)).writeLane .addrHi (hi32 v) = { u with addr := v } := by
  simp [HzcUnit.writeLane]

/-- Both halves of DATA. -/
theorem HzcUnit.writeLane_data (u : HzcUnit) (v : Word64) :
    (u.writeLane .dataLo (lo32 v)).writeLane .dataHi (hi32 v) = { u with data := v } := by
  simp [HzcUnit.writeLane]

/-- Settles O47: the two lanes of each 64-bit register, and the lane of LEN with the reserved one above it. -/
theorem operandWritesSetTheirRegister : Obligations.OperandWritesSetTheirRegister := by
  intro s u value h
  refine ⟨?_, ?_, ?_, ?_, ?_⟩
  · rw [← u.writeLane_seed]
    exact State.windowAccess_write_eight h (by decide) rfl
  · rw [← u.writeLane_addr]
    exact State.windowAccess_write_eight h (by decide) rfl
  · rw [← u.writeLane_data]
    exact State.windowAccess_write_eight h (by decide) rfl
  · exact State.windowAccess_write_four h (by decide) rfl
  · exact State.windowAccess_write_eight h (by decide) rfl

/-- Settles O48: each half is a lane. -/
theorem halfWritesReachTheirHalf : Obligations.HalfWritesReachTheirHalf := by
  intro s u value h
  exact ⟨State.windowAccess_write_four h (by decide) rfl, State.windowAccess_write_four h (by decide) rfl,
    State.windowAccess_write_four h (by decide) rfl, State.windowAccess_write_four h (by decide) rfl,
    State.windowAccess_write_four h (by decide) rfl, State.windowAccess_write_four h (by decide) rfl⟩

/-! ## Accesses that read zero and write nothing -/

/-- A write that leaves its unit as it is changes nothing. -/
theorem State.windowAccess_write_ignored (h : s.units[s.sel]? = some u)
    (hc : Access.writesCmd ⟨.write, off, size, value⟩ = false)
    (hw : u.writeWindow ⟨.write, off, size, value⟩ = u) : s.windowAccess ⟨.write, off, size, value⟩ = .next s := by
  rw [State.windowAccess_write h hc, hw, State.setUnit_same h]

/-- Where every lane a write reaches ignores it, the write leaves the unit as it is. -/
theorem HzcUnit.writeWindow_ignored (hlo : ∀ v, u.writeLane (laneAt off) v = u)
    (hhi : size = 8 → ∀ v, u.writeLane (laneAt (off + 4)) v = u) :
    u.writeWindow ⟨.write, off, size, value⟩ = u := by
  unfold HzcUnit.writeWindow
  split_ifs with hr h8
  · rw [hlo, hhi h8]
  · rw [hlo]
  · rfl

/-- Settles O51: the lanes of the read-only registers ignore writes. -/
theorem readOnlyRegistersIgnoreWrites : Obligations.ReadOnlyRegistersIgnoreWrites := by
  intro s u size off value h hoff
  have h0 : off ≠ 0 := by
    rcases hoff with ⟨-, rfl | rfl | rfl | rfl | rfl | rfl⟩ | ⟨-, rfl | rfl | rfl⟩ <;> decide
  refine State.windowAccess_write_ignored h (Access.writesCmd_of_ne h0) ?_
  rcases hoff with ⟨rfl, hoff⟩ | ⟨rfl, hoff⟩
  · refine HzcUnit.writeWindow_ignored (fun v => ?_) nofun
    rcases hoff with rfl | rfl | rfl | rfl | rfl | rfl <;> rfl
  · refine HzcUnit.writeWindow_ignored (fun v => ?_) fun _ v => ?_ <;> rcases hoff with rfl | rfl | rfl <;> rfl

/-- Settles O52: an access that is not regular reads zero and writes nothing. -/
theorem irregularAccessesReadZeroAndWriteNothing : Obligations.IrregularAccessesReadZeroAndWriteNothing := by
  intro s u off size value h hirr
  have hregular : ∀ dir, Access.regular ⟨dir, off, size, value⟩ = false := fun dir => by
    rw [← Bool.not_eq_true, Access.regular_iff]
    rintro ⟨hsize, hal⟩
    exact hirr.elim (fun hne => hsize.elim hne.1 hne.2) fun hmis => hmis hal
  refine ⟨State.windowAccess_write_ignored h ?_ ?_, ?_⟩
  · rw [Access.writesCmd, hregular]
    rfl
  · rw [HzcUnit.writeWindow, hregular]
    rfl
  · rw [State.windowAccess_read h, State.hostRead_eq, Access.readsStatus, HzcUnit.readWindow, hregular]
    rfl

/-- Where every lane a read reaches is reserved, it returns zero. -/
theorem HzcUnit.readWindow_reserved (u : HzcUnit) (p : Platform) (hlo : laneAt off = .reserved)
    (hhi : size = 8 → laneAt (off + 4) = .reserved) : u.readWindow p ⟨.read, off, size, value⟩ = 0 := by
  unfold HzcUnit.readWindow
  split_ifs with hr h8
  · rw [hlo, hhi h8]
    exact join64_zero 0
  · rw [hlo]
    rfl
  · rfl

/-- A regular access to a reserved offset reaches reserved lanes only. -/
theorem laneAt_of_reservedOffset (h : off = 0x0C ∨ off = 0x24 ∨ 0x44 ≤ off.toNat) :
    laneAt off = .reserved ∧ (off.toNat % 8 = 0 → laneAt (off + 4) = .reserved) := by
  revert off
  decide

/-- Settles O50: an aligned access to a reserved offset reaches reserved lanes, any other one is irregular. -/
theorem reservedOffsetsReadZeroAndIgnoreWrites : Obligations.ReservedOffsetsReadZeroAndIgnoreWrites := by
  intro s u off value h hoff size hsize
  by_cases hal : off.toNat % size = 0
  · obtain ⟨hlo, hhi⟩ := laneAt_of_reservedOffset hoff
    have hhi : size = 8 → laneAt (off + 4) = .reserved := fun h8 => hhi (h8 ▸ hal)
    have h04 : off ≠ 0x04 ∧ off ≠ 0 := by
      rcases hoff with rfl | rfl | hoff
      · decide
      · decide
      · constructor <;> rintro rfl <;> exact absurd hoff (by decide)
    refine ⟨State.windowAccess_write_ignored h (Access.writesCmd_of_ne h04.2) ?_, ?_⟩
    · exact HzcUnit.writeWindow_ignored (fun v => by rw [hlo]; rfl) fun h8 v => by rw [hhi h8]; rfl
    · rw [State.windowAccess_read_value h fun hst => hst.elim (fun hs => h04.1 hs.1) fun hs => h04.2 hs.1,
        u.readWindow_reserved s.platform hlo hhi]
  · exact irregularAccessesReadZeroAndWriteNothing s u off size value h (.inr hal)

/-! ## Reads of the registers -/

/-- A read answers with the value of the window. -/
theorem State.readsAs_of {r : Word64} (h : s.units[s.sel]? = some u)
    (hr : ∀ value, u.readWindow s.platform ⟨.read, off, size, value⟩ = r) : s.readsAs off size r := by
  intro value
  exact ⟨_, by rw [windowReadsHaveNoSideEffect s u off size value h, hr]⟩

/-- A 4-byte read at a multiple of 4 gives its lane, zero-extended. -/
theorem State.readsAs_four (h : s.units[s.sel]? = some u) (hal : off.toNat % 4 = 0) :
    s.readsAs off 4 (zext64 (u.readLane s.platform (laneAt off))) :=
  State.readsAs_of h fun value => by simp [HzcUnit.readWindow, Access.regular, hal]

/-- An 8-byte read at a multiple of 8 gives its two lanes. -/
theorem State.readsAs_eight (h : s.units[s.sel]? = some u) (hal : off.toNat % 8 = 0) :
    s.readsAs off 8 (join64 (u.readLane s.platform (laneAt (off + 4))) (u.readLane s.platform (laneAt off))) :=
  State.readsAs_of h fun value => by simp [HzcUnit.readWindow, Access.regular, hal]

/-- An 8-byte read of a 64-bit register: its two halves stand in the two lanes. -/
theorem State.readsAs_register {v : Word64} (h : s.units[s.sel]? = some u) (hal : off.toNat % 8 = 0)
    (hlo : u.readLane s.platform (laneAt off) = lo32 v) (hhi : u.readLane s.platform (laneAt (off + 4)) = hi32 v) :
    s.readsAs off 8 v := by
  have hread := State.readsAs_eight h hal
  rwa [hlo, hhi, join64_hi32_lo32] at hread

/-- An 8-byte read of a lane below a reserved one. -/
theorem State.readsAs_low (h : s.units[s.sel]? = some u) (hal : off.toNat % 8 = 0)
    (hhi : laneAt (off + 4) = .reserved) : s.readsAs off 8 (zext64 (u.readLane s.platform (laneAt off))) := by
  rw [← join64_zero]
  have hread := State.readsAs_eight h hal
  rwa [hhi] at hread

/-- Settles O49: each clause reads one lane, the two halves of a register, two registers, or a lane below a reserved
one. -/
theorem windowReadsReturnTheRegisters : Obligations.WindowReadsReturnTheRegisters := by
  intro s u h
  have four : ∀ off : BitVec 8, off.toNat % 4 = 0 → s.readsAs off 4 (zext64 (u.readLane s.platform (laneAt off))) :=
    fun _ => State.readsAs_four h
  exact ⟨State.readsAs_register h rfl rfl rfl, four 0x10 rfl, four 0x14 rfl,
    State.readsAs_register h rfl rfl rfl, four 0x18 rfl, four 0x1C rfl,
    State.readsAs_register h rfl rfl rfl, four 0x28 rfl, four 0x2C rfl,
    State.readsAs_register h rfl rfl rfl, four 0x30 rfl, four 0x34 rfl,
    State.readsAs_low h rfl rfl, four 0x20 rfl,
    State.readsAs_eight h rfl, four 0x38 rfl, four 0x3C rfl,
    State.readsAs_low h rfl rfl, four 0x40 rfl,
    four 0x04 rfl, State.readsAs_eight h rfl, four 0x00 rfl,
    State.readsAs_low h rfl rfl, four 0x08 rfl⟩

end Access

/-! ## Steps whose event is a window access or a sequencer's turn -/

/-- Settles O5: the write reaches CMD, whose low 32 bits are decoded. -/
theorem cmdWriteStepRunsTheDecodedCommand : Obligations.CmdWriteStepRunsTheDecodedCommand := by
  intro s k size value rest i hs hsize hi
  have hc : Access.writesCmd ⟨.write, 0x00, size, value⟩ = true := Access.writesCmd_iff.mpr ⟨hsize, rfl⟩
  rw [step_scheduled hs, State.event, State.windowAccess, if_pos hc, State.cmdWrite, lo32, hi]
  rfl

/-- A write of CTRL, of 4 or 8 bytes, resets its unit exactly when SRST is 1 (R26). -/
theorem HzcUnit.writeWindow_ctrl (u : HzcUnit) {size : Nat} {value : Word64} (hsize : size = 4 ∨ size = 8) :
    u.writeWindow ⟨.write, 0x08, size, value⟩ = if value.getLsbD 0 then HzcUnit.reset else u := by
  have hlane : u.writeLane .ctrl (lo32 value) = if value.getLsbD 0 then HzcUnit.reset else u := by
    rw [HzcUnit.writeLane, lo32_getLsbD_zero, HzcUnit.softReset_eq]
  rcases hsize with rfl | rfl
  · exact (u.writeWindow_four rfl).trans hlane
  · exact (u.writeWindow_eight rfl).trans hlane

/-- Settles O38: CTRL is no CMD write, and what it does to its unit is `writeWindow_ctrl`. -/
theorem ctrlWriteResetsOnSrst : Obligations.CtrlWriteResetsOnSrst := by
  intro s k u size value rest hs hsize hu
  rw [step_scheduled hs, ← u.writeWindow_ctrl hsize]
  exact State.windowAccess_write (s := State.select { s with sched := rest } k) hu
    (Access.writesCmd_of_ne (by decide))

/-- The search for the first entry with a property stops at an entry that has it, when none before it does. -/
theorem findIdx?_eq_of_first {α : Type} {l : List α} {p : α → Bool} {k : Nat} {x : α} (hk : l[k]? = some x)
    (hx : p x = true) (hfirst : ∀ j y, j < k → l[j]? = some y → p y = false) : l.findIdx? p = some k := by
  obtain ⟨hlt, rfl⟩ := List.getElem?_eq_some_iff.mp hk
  refine List.findIdx?_eq_some_iff_getElem.mpr ⟨hlt, hx, fun j hj => ?_⟩
  rw [Bool.not_eq_true]
  exact hfirst j _ hj (List.getElem?_eq_getElem _)

/-- The first window, in the order of the units, that holds an address answers it (10_state.md R22; log entry 1). -/
theorem resolveBus_first {p : Platform} {a base : Word64} {k : Nat} (hk : p.regBase[k]? = some base)
    (ha : (a - base).toNat < 256) (hfirst : ∀ j b, j < k → p.regBase[j]? = some b → 256 ≤ (a - b).toNat) :
    resolveBus p a = some (k, (a - base).setWidth 8) := by
  rw [resolveBus, findIdx?_eq_of_first hk (decide_eq_true ha) fun j b hj hb =>
    decide_eq_false (Nat.not_lt.mpr (hfirst j b hj hb))]
  simp only [hk]

/-- With nothing scheduled the first busy unit's sequencer steps (log entry 3). -/
theorem State.quietStep_first {s : State} {k : Nat} {u : HzcUnit} (hu : s.units[k]? = some u) (hb : u.busy = true)
    (hfirst : ∀ j v, j < k → s.units[j]? = some v → v.busy = false) : s.quietStep = s.seqStep k := by
  rw [State.quietStep, findIdx?_eq_of_first hu hb hfirst]

/-- With nothing scheduled an idle machine stays as it is (60_exceptions.md R196). -/
theorem State.quietStep_idle {s : State} (h : ∀ u ∈ s.units, u.busy = false) : s.quietStep = .next s := by
  rw [State.quietStep, List.findIdx?_eq_none_iff.mpr h]

/-- Settles O54: the clauses on accesses and turns are the arms of `State.event`. -/
theorem busAccessesReachTheirWindow : Obligations.BusAccessesReachTheirWindow := by
  refine ⟨fun s k a rest hs => step_scheduled hs, fun s k rest hs => step_scheduled hs,
    fun s k rest hs => step_scheduled hs, fun s k u hs hu hb hfirst => ?_, fun s hs hidle => ?_, ?_⟩
  · rw [step_quiet hs, State.quietStep_first hu hb hfirst]
  · rw [step_quiet hs, State.quietStep_idle hidle]
  · intro s a base dir size value rest k hs hk ha hfirst
    rw [step_scheduled hs, State.event, resolveBus_first hk ha hfirst]
    rfl

end Sys2Proof.Machine
end
section
/-! SUPPORT. What a step does to the buffer space, what a host store does to the units, and what the host owes: the
proofs of O12, O43, O44, O46 and O60. -/

namespace Sys2Proof.Machine

variable {s t : State} {k : Nat} {u : HzcUnit}

/-! ## Readable ranges (20_memory.md R51) -/

/-- In a range that ends in the buffer space, being covered is being readable byte by byte. -/
theorem covered_iff_readableAt {p : Platform} {a : Word64} {n : Nat} (h : a.toNat + n ≤ 2 ^ 64) :
    covered p.readable a.toNat (a.toNat + n) = true ↔ ∀ j, j < n → readableAt p (a + BitVec.ofNat 64 j) = true := by
  rw [covered_iff]
  constructor
  · intro hc j hj
    rw [readableAt_iff, toNat_add_ofNat (by omega)]
    exact hc _ (Nat.le_add_right _ _) (by omega)
  · intro hr x hlo hhi
    obtain ⟨j, rfl⟩ := Nat.exists_eq_add_of_le hlo
    have hj := hr j (by omega)
    rwa [readableAt_iff, toNat_add_ofNat (by omega)] at hj

/-- Settles O12: the recursion over the regions says that every address of the range is in one of them. -/
theorem inRangeMeansEveryByteIsReadable : Obligations.InRangeMeansEveryByteIsReadable := by
  intro p a n
  refine ⟨?_, inRange_zero p a⟩
  rw [inRange, Bool.and_eq_true, decide_eq_true_iff]
  exact and_congr_right covered_iff_readableAt

/-! ## The buffer space (20_memory.md R50) -/

/-- A window access writes no memory. -/
theorem State.windowAccess_mem {a : Access} (h : s.windowAccess a = .next t) : t.mem = s.mem := by
  obtain ⟨u, -, ⟨i, -, -, rfl⟩ | ⟨_, -, -, rfl⟩ | ⟨-, -, rfl⟩ | ⟨-, -, rfl⟩⟩ := State.windowAccess_next h
  · exact State.afterCmd_mem ..
  · exact State.afterCmd_mem ..
  · rfl
  · exact State.hostRead_mem ..

/-- A step writes no memory, unless its event is a host store. -/
theorem step_mem (h : step s = .next t) (hs : ∀ a b, s.sched.head? ≠ some (.store a b)) : t.mem = s.mem := by
  obtain ⟨r, rfl, ⟨k, a, hw⟩ | ⟨a, b, hhead, -⟩ | ⟨k, -, hreset⟩ | ⟨k, hk⟩ | ⟨k, -, hw⟩ | rfl⟩ := step_next h
  · exact State.windowAccess_mem (s := State.select { s with sched := s.sched.tail } k) hw
  · exact absurd hhead (hs a b)
  · obtain ⟨u, -, rfl⟩ := State.onUnit_next hreset
    rfl
  · obtain ⟨_, _, _, -, -, rfl⟩ := State.seqStep_frame hk
    rfl
  · obtain ⟨_, -, _, rfl⟩ := State.waitStep_next hw
    rfl
  · rfl

/-- A step whose event is a host store. -/
theorem step_store {a : Word64} {b : Byte} {rest : List Event} (h : s.sched = .store a b :: rest) :
    step s = .next (State.hostStore { s with sched := rest } a b) :=
  step_scheduled h

/-- Settles O43: the frame of every other step, and the laws of a read after a store. -/
theorem onlyHostStoresChangeMemory : Obligations.OnlyHostStoresChangeMemory := by
  intro s t h
  refine ⟨step_mem h, fun a b hhead hwf x => ?_⟩
  obtain ⟨rest, hs⟩ := List.head?_eq_some_iff.mp hhead
  rw [step_store hs] at h
  injection h with h
  subst h
  show Memory.read (Memory.write s.mem a.toNat b) x.toNat = _
  split
  · next hx =>
    rw [hx]
    exact Memory.read_write_same b hwf
  · next hx => exact Memory.read_write_other s.mem b fun hn => hx (BitVec.eq_of_toNat_eq hn)

/-! ## Host stores into read ranges (20_memory.md R62, 60_exceptions.md R188) -/

/-- The latched read range, command by command: CSUMB and CSUM read LEN bytes, CSUMW 8 LEN bytes, the others none. -/
theorem HzcUnit.inReadRange_iff {a : Word64} :
    u.inReadRange a = true ↔ u.busy = true ∧ u.lAddr.toNat ≤ a.toNat ∧
      (u.lOp = 4 ∧ a.toNat < u.lAddr.toNat + u.lLen.toNat ∨
       u.lOp = 6 ∧ a.toNat < u.lAddr.toNat + u.lLen.toNat ∨
       u.lOp = 5 ∧ a.toNat < u.lAddr.toNat + 8 * u.lLen.toNat) := by
  simp only [HzcUnit.inReadRange, Bool.and_eq_true, decide_eq_true_iff, and_assoc]
  refine and_congr_right fun _ => and_congr_right fun hlo => ?_
  cases hi : opInstr u.lOp with
  | none =>
    have hop : ∀ i, u.lOp ≠ opCode i := fun i he => by simp [he] at hi
    have h4 : u.lOp ≠ 4 := hop .csumb
    have h5 : u.lOp ≠ 5 := hop .csumw
    have h6 : u.lOp ≠ 6 := hop .csum
    simp only [HzcUnit.extent, hi, h4, h5, h6, false_and, or_false, iff_false]
    exact Nat.not_lt.mpr hlo
  | some i =>
    have hop := eq_opCode_of_opInstr hi
    have hextent : u.extent = extentOf i u.lLen.toNat := by rw [HzcUnit.extent, hi]; rfl
    rw [hextent, hop]
    cases i <;> simp [extentOf, opCode, hlo]

/-- The record of a host store at one unit, with its read range written out. -/
theorem HzcUnit.noteStore_eq (a : Word64) (u : HzcUnit) :
    u.noteStore a = if u.inReadRange a = true then { u with raced := a :: u.raced } else u := rfl

/-- A host store is a HostRace when there was one before, or when it falls in a range the host owes. -/
theorem State.hostStore_hostRace (s : State) (a : Word64) (b : Byte) :
    (s.hostStore a b).hostRace = true ↔ s.hostRace = true ∨
      ∃ d ∈ s.duty, d.base.toNat ≤ a.toNat ∧ a.toNat < d.base.toNat + d.size := by
  simp [State.hostStore, Duty.holds]

/-- Where a host store falls in the read range of a command in progress, the invariant makes it a HostRace. -/
theorem State.Inv.hostRace_of_inReadRange (h : s.Inv) (hu : u ∈ s.units) {a : Word64} (b : Byte)
    (ha : u.inReadRange a = true) : (s.hostStore a b).hostRace = true := by
  obtain ⟨k, hk⟩ := List.getElem?_of_mem hu
  obtain ⟨-, howed, -⟩ := h.unit hk
  exact Bool.or_eq_true_iff.mpr (.inr (howed.holds ha))

/-- Settles O44: `hostStore` field by field, with the read range of a command written out. -/
theorem hostStoresIntoABusyRangeAreRaces : Obligations.HostStoresIntoABusyRangeAreRaces := by
  intro s a b rest hs
  refine ⟨_, step_store hs, rfl, rfl, rfl, rfl, rfl, rfl, List.length_map _, State.hostStore_hostRace _ a b,
    fun j u hu => ?_, fun hinv u hu hb hlo hop => ?_⟩
  · simp only [← HzcUnit.inReadRange_iff, ← HzcUnit.noteStore_eq]
    exact List.getElem?_map.trans (congrArg (Option.map (HzcUnit.noteStore a)) hu)
  · exact (hinv.ofDuty hinv.owed s.rdata rest s.sel).hostRace_of_inReadRange hu b
      (HzcUnit.inReadRange_iff.mpr ⟨hb, hlo, hop⟩)

/-! ## Units do not interfere (20_memory.md R63, 60_exceptions.md R194) -/

/-- A window access leaves every unit but the selected one as it is. -/
theorem State.windowAccess_other {a : Access} {j : Nat} (h : s.windowAccess a = .next t) (hj : j ≠ s.sel) :
    t.units[j]? = s.units[j]? := by
  obtain ⟨u, -, ⟨i, -, -, rfl⟩ | ⟨_, -, -, rfl⟩ | ⟨-, -, rfl⟩ | ⟨-, -, rfl⟩⟩ := State.windowAccess_next h
  · rw [State.afterCmd_units, List.getElem?_set_ne (Ne.symm hj)]
  · rw [State.afterCmd_units, List.getElem?_set_ne (Ne.symm hj)]
  · exact s.setUnit_get_other _ hj
  · rw [State.hostRead_units]

/-- A sequencer step leaves every unit but its own as it is. -/
theorem State.seqStep_other {j : Nat} (h : s.seqStep k = .next t) (hj : j ≠ k) : t.units[j]? = s.units[j]? := by
  obtain ⟨_, v, history, -, -, rfl⟩ := State.seqStep_frame h
  exact State.setUnit_get_other { s with history := history } v hj

/-- An event of one unit leaves every other unit as it is. -/
theorem State.event_other {j : Nat} {e : Event} (h : s.event e = .next t) (he : eventUnit s.platform e = some k)
    (hj : j ≠ k) : t.units[j]? = s.units[j]? := by
  cases e with
  | access i a =>
    obtain rfl := Option.some.inj he
    exact State.windowAccess_other (s := s.select i) h hj
  | bus address dir size value =>
    simp only [State.event] at h
    split at h
    · next i off hres =>
      rw [eventUnit, hres] at he
      obtain rfl := Option.some.inj he
      exact State.windowAccess_other (s := s.select i) h hj
    · cases h
  | store a b => cases he
  | resetInput i =>
    obtain rfl := Option.some.inj he
    obtain ⟨u, -, rfl⟩ := State.onUnit_next h
    exact s.setUnit_get_other _ hj
  | tick i =>
    obtain rfl := Option.some.inj he
    exact State.seqStep_other h hj
  | wait i =>
    obtain ⟨_, -, _, rfl⟩ := State.waitStep_next h
    rfl
  | chainSeed i =>
    obtain rfl := Option.some.inj he
    exact State.windowAccess_other (s := s.select i) h hj

/-- A sequencer step of an idle unit does nothing. -/
theorem State.seqStep_idle (hu : s.units[k]? = some u) (hb : u.busy = false) : s.seqStep k = .next s := by
  simp [State.seqStep, hu, hb]

/-- A sequencer step does the same to its unit and the history, whatever the other units are. -/
theorem State.seqStep_withUnits (h : s.seqStep k = .next t) {us : List HzcUnit} (hus : us[k]? = s.units[k]?) :
    ∃ t', State.seqStep { s with units := us } k = .next t' ∧ t'.units[k]? = t.units[k]? ∧ t'.history = t.history := by
  obtain ⟨u, hu, hcase⟩ := State.seqStep_next h
  have hu' : us[k]? = some u := hus.trans hu
  obtain ⟨hb, rfl⟩ | ⟨hb, hq, i, hi, rfl⟩ | ⟨hb, f, rest, hq, h0, rfl⟩ | ⟨hb, f, rest, hq, h0, hr, rfl⟩ := hcase
  · exact ⟨_, State.seqStep_idle hu' hb, hus, rfl⟩
  · exact ⟨_, State.seqStep_complete hu' hb hq hi,
      (State.setUnit_get_self hu' _).trans (State.setUnit_get_self hu _).symm, rfl⟩
  · exact ⟨_, State.seqStep_drop hu' hb hq h0,
      (State.setUnit_get_self hu' _).trans (State.setUnit_get_self hu _).symm, rfl⟩
  · exact ⟨_, State.seqStep_fold hu' hb hq h0 hr,
      (State.setUnit_get_self (s := State.record { s with units := us } _) hu' _).trans
        (State.setUnit_get_self (s := s.record _) hu _).symm, rfl⟩

/-- A unit is found after a CMD write as it was put back. -/
theorem State.afterCmd_get_self (hu : s.units[k]? = some u) (v : HzcUnit) : (s.afterCmd k u v).units[k]? = some v := by
  rw [State.afterCmd_units, ← State.setUnit_units]
  exact State.setUnit_get_self hu v

/-- A command does the same to its unit, whatever the other units are. -/
theorem exec_withUnits {i : Instr} (h : exec i s = .next t) {us : List HzcUnit} (hus : us[s.sel]? = s.units[s.sel]?) :
    ∃ t', exec i { s with units := us } = .next t' ∧ t'.units[s.sel]? = t.units[s.sel]? := by
  rw [exec_eq_command] at h
  obtain ⟨u, hu, rfl⟩ := State.command_next h
  have hu' : us[s.sel]? = some u := hus.trans hu
  exact ⟨_, exec_some hu' i, (State.afterCmd_get_self hu' _).trans (State.afterCmd_get_self hu _).symm⟩

/-- Settles O46: the frame of every event, and that a sequencer step and a command look at no other unit. -/
theorem instancesDoNotInterfere : Obligations.InstancesDoNotInterfere := by
  refine ⟨fun s t k j e h hhead he hj => ?_, fun s s' t k hs hus h => ?_, fun s s' t i hs hus h => ?_⟩
  · obtain ⟨rest, hs⟩ := List.head?_eq_some_iff.mp hhead
    rw [step_scheduled hs] at h
    exact State.event_other (s := { s with sched := rest }) h he hj
  · rw [hs]
    exact State.seqStep_withUnits h hus
  · rw [hs]
    exact exec_withUnits h hus

/-! ## What the host owes (20_memory.md R62, 70_reset_and_hazards.md R208) -/

/-- The next event is a read of STATUS of unit `k`: a pass of `wait`, or a read of its window that returns STATUS. -/
def State.readsStatusOf (s : State) (k : Nat) : Prop :=
  s.sched.head? = some (.wait k) ∨
    ∃ off size value, (off = 0x04 ∧ size = 4 ∨ off = 0x00 ∧ size = 8) ∧
      (s.sched.head? = some (.access k ⟨.read, off, size, value⟩) ∨
        ∃ a, s.sched.head? = some (.bus a .read size value) ∧ resolveBus s.platform a = some (k, off))

/-- A range stays owed where the list is kept, or cleared of what is owed to another unit. -/
theorem mem_duty_cleared {duty : List Duty} {d : Duty} {c : Prop} [Decidable c] (hd : d ∈ duty) :
    (d ∈ if c then duty.filter fun e => e.unit != k else duty) ∨ (c ∧ d.unit = k) := by
  by_cases hk : d.unit = k
  · split
    · next hc => exact .inr ⟨hc, hk⟩
    · exact .inl hd
  · refine .inl ?_
    split
    · exact List.mem_filter.mpr ⟨hd, bne_iff_ne.mpr hk⟩
    · exact hd

/-- A range owed before a window access is owed after it, unless the access reads BUSY = 0 at its unit. -/
theorem State.windowAccess_keeps_duty {a : Access} {d : Duty} (h : s.windowAccess a = .next t) (hd : d ∈ s.duty) :
    d ∈ t.duty ∨ (d.unit = s.sel ∧ a.dir = .read ∧ a.readsStatus = true ∧
      ∃ u, s.units[s.sel]? = some u ∧ u.busy = false) := by
  obtain ⟨u, hu, ⟨i, -, -, rfl⟩ | ⟨_, -, -, rfl⟩ | ⟨-, -, rfl⟩ | ⟨-, hdir, rfl⟩⟩ := State.windowAccess_next h
  · exact .inl ((State.mem_afterCmd ..).mpr (.inr hd))
  · exact .inl ((State.mem_afterCmd ..).mpr (.inr hd))
  · exact .inl hd
  · rw [State.hostRead_eq]
    exact (mem_duty_cleared hd).imp_right fun ⟨hc, hk⟩ => ⟨hk, hdir, hc.1, u, hu, hc.2⟩

/-- A range owed before a step is owed after it, unless the step reads BUSY = 0 at its unit. -/
theorem step_keeps_duty {d : Duty} (h : step s = .next t) (hd : d ∈ s.duty) :
    d ∈ t.duty ∨ ∃ u, s.units[d.unit]? = some u ∧ u.busy = false ∧ s.readsStatusOf d.unit := by
  cases hs : s.sched with
  | nil =>
    rw [step_quiet hs] at h
    obtain rfl | ⟨j, hj⟩ := State.quietStep_next h
    · exact .inl hd
    · obtain ⟨_, _, _, -, -, rfl⟩ := State.seqStep_frame hj
      exact .inl hd
  | cons e rest =>
    have hhead : s.sched.head? = some e := by rw [hs]; rfl
    rw [step_scheduled hs] at h
    cases e with
    | access j a =>
      refine (State.windowAccess_keeps_duty (s := State.select { s with sched := rest } j) h hd).imp_right ?_
      rintro ⟨rfl, hdir, hst, u, hu, hb⟩
      obtain ⟨dir, off, size, value⟩ := a
      obtain rfl : dir = .read := hdir
      exact ⟨u, hu, hb, .inr ⟨off, size, value, Access.readsStatus_iff.mp hst, .inl hhead⟩⟩
    | bus address dir size value =>
      simp only [State.event] at h
      split at h
      · next j off hres =>
        refine (State.windowAccess_keeps_duty (s := State.select { s with sched := rest } j) h hd).imp_right ?_
        rintro ⟨rfl, hdir, hst, u, hu, hb⟩
        obtain rfl : dir = .read := hdir
        exact ⟨u, hu, hb, .inr ⟨off, size, value, Access.readsStatus_iff.mp hst, .inr ⟨address, hhead, hres⟩⟩⟩
      · cases h
    | store a b =>
      injection h with h
      subst h
      exact .inl hd
    | resetInput j =>
      obtain ⟨_, -, rfl⟩ := State.onUnit_next h
      exact .inl hd
    | tick j =>
      obtain ⟨_, _, _, -, -, rfl⟩ := State.seqStep_frame h
      exact .inl hd
    | wait j =>
      obtain ⟨u, hu, sched, rfl⟩ := State.waitStep_next h
      refine (mem_duty_cleared hd).imp_right ?_
      rintro ⟨hb, rfl⟩
      exact ⟨u, hu, hb, .inl hhead⟩
    | chainSeed j =>
      refine (State.windowAccess_keeps_duty (s := State.select { s with sched := rest } j) h hd).imp_right ?_
      exact fun ⟨_, hdir, _⟩ => Dir.noConfusion hdir

/-- The command of the range `d` is accepted between `s` and `t`: its unit was ready, is busy, and `d` is the read range
it has latched from its operand registers. -/
def Duty.accepted (s t : State) (d : Duty) : Prop :=
  ∃ u v, s.units[d.unit]? = some u ∧ t.units[d.unit]? = some v ∧ u.err = .none ∧ u.busy = false ∧
    v.busy = true ∧ d.base = u.addr ∧ d.base = v.lAddr ∧ d.size = v.extent

/-- A CMD write makes BUSY rise only where a ready unit starts the command. -/
theorem HzcUnit.cmdWrite_busy {p : Platform} {check : Platform → HzcUnit → Option ErrCode} {start : HzcUnit → HzcUnit}
    (hb : u.busy = false) (hv : (u.cmdWrite p check start).busy = true) :
    u.err = .none ∧ check p u = none ∧ u.cmdWrite p check start = start u := by
  obtain ⟨-, hc⟩ | ⟨-, hb', -⟩ | ⟨-, -, e, -, hc⟩ | ⟨he, -, hn, hc⟩ := u.cmdWrite_cases p check start
  · rw [hc] at hv
    exact Bool.noConfusion (hb.symm.trans hv)
  · exact Bool.noConfusion (hb.symm.trans hb')
  · rw [hc] at hv
    exact Bool.noConfusion hv
  · exact ⟨he, hn, hc⟩

/-- A range owed after a CMD write was owed before, or is that of the command it starts. -/
theorem State.afterCmd_new_duty {check : Platform → HzcUnit → Option ErrCode} {start : HzcUnit → HzcUnit} {d : Duty}
    (hu : s.units[k]? = some u) (hs : check s.platform u = none → (start u).lAddr = u.addr)
    (hd : d ∈ (s.afterCmd k u (u.cmdWrite s.platform check start)).duty) :
    d ∈ s.duty ∨ d.accepted s (s.afterCmd k u (u.cmdWrite s.platform check start)) := by
  obtain ⟨hb, hv, -, rfl⟩ | hd := (State.mem_afterCmd ..).mp hd
  · obtain ⟨he, hn, hc⟩ := HzcUnit.cmdWrite_busy hb hv
    have hbase := (congrArg HzcUnit.lAddr hc).trans (hs hn)
    exact .inr ⟨u, _, hu, State.afterCmd_get_self hu _, he, hb, hv, hbase, rfl, rfl⟩
  · exact .inl hd

/-- A range owed after a window access was owed before, or is that of the command the access starts. -/
theorem State.windowAccess_new_duty {a : Access} {d : Duty} (h : s.windowAccess a = .next t) (hd : d ∈ t.duty) :
    d ∈ s.duty ∨ d.accepted s t := by
  obtain ⟨u, hu, ⟨i, -, -, rfl⟩ | ⟨_, -, -, rfl⟩ | ⟨-, -, rfl⟩ | ⟨-, -, rfl⟩⟩ := State.windowAccess_next h
  · refine State.afterCmd_new_duty hu (fun _ => ?_) hd
    obtain ⟨acc, q, hs⟩ := startOf_eq_issue i u
    rw [hs, HzcUnit.issue_lAddr]
  · exact State.afterCmd_new_duty hu (fun hc => by cases hc) hd
  · exact .inl hd
  · rw [State.hostRead_eq] at hd
    split at hd
    · exact .inl (List.mem_filter.mp hd).1
    · exact .inl hd

/-- A range owed after a step was owed before, or is that of the command the step starts. -/
theorem step_new_duty {d : Duty} (h : step s = .next t) (hd : d ∈ t.duty) : d ∈ s.duty ∨ d.accepted s t := by
  obtain ⟨r, rfl, ⟨k, a, hw⟩ | ⟨a, b, -, rfl⟩ | ⟨k, -, hreset⟩ | ⟨k, hk⟩ | ⟨k, -, hw⟩ | rfl⟩ := step_next h
  · exact State.windowAccess_new_duty (s := State.select { s with sched := s.sched.tail } k) hw hd
  · exact .inl hd
  · obtain ⟨_, -, rfl⟩ := State.onUnit_next hreset
    exact .inl hd
  · obtain ⟨_, _, _, -, -, rfl⟩ := State.seqStep_frame hk
    exact .inl hd
  · obtain ⟨_, -, _, rfl⟩ := State.waitStep_next hw
    dsimp only at hd
    split at hd
    · exact .inl (List.mem_filter.mp hd).1
    · exact .inl hd
  · exact .inl hd

/-- Settles O60: a read of BUSY = 0 alone ends what is owed, and an accepted command alone begins it. -/
theorem readRangesAreOwedUntilTheHostReadsIdle : Obligations.ReadRangesAreOwedUntilTheHostReadsIdle :=
  fun _ _ _ h => ⟨step_keeps_duty h, step_new_duty h⟩

end Sys2Proof.Machine
end
section
/-! SUPPORT. The decoder and the encoder of command words, the CMD write of a word that is no command, and a pass of
`wait`: the proofs of O1 to O4, of O6 and of O55. -/

namespace Sys2Proof.Machine

/-! ## Codes and the decoder (30_encoding.md R72, R73) -/

/-- A code selects a command exactly when it is the command's code. -/
theorem opInstr_eq_some_iff {op : BitVec 4} {i : Instr} : opInstr op = some i ↔ op = opCode i :=
  ⟨eq_opCode_of_opInstr, fun h => h ▸ opInstr_opCode i⟩

/-- The reserved codes are 0x0 and 0x8 to 0xF. -/
theorem opInstr_eq_none_iff {op : BitVec 4} : opInstr op = none ↔ op = 0 ∨ 8 ≤ op.toNat := by
  revert op
  decide

/-- Everything the decoder can say of a word: a reserved bit is set, the code is reserved, or the code is that of a
command. -/
theorem decodeWord_cases (w : Word32) :
    (rsvField w ≠ 0 ∧ decodeWord w = .error (.reservedBits (rsvField w))) ∨
    (rsvField w = 0 ∧ opInstr (opField w) = none ∧ decodeWord w = .error (.reservedOp (opField w))) ∨
    (rsvField w = 0 ∧ ∃ i, opInstr (opField w) = some i ∧ decodeWord w = .ok i) := by
  by_cases hr : rsvField w = 0
  · cases ho : opInstr (opField w) with
    | none => exact .inr (.inl ⟨hr, rfl, by rw [decodeWord, if_pos hr, ho]⟩)
    | some i => exact .inr (.inr ⟨hr, i, rfl, by rw [decodeWord, if_pos hr, ho]⟩)
  · exact .inl ⟨hr, if_neg hr⟩

/-- The words of a command: no reserved bit is set, and the code is that of the command. -/
theorem decodeWord_eq_ok_iff {w : Word32} {i : Instr} :
    decodeWord w = .ok i ↔ rsvField w = 0 ∧ opField w = opCode i := by
  rw [← opInstr_eq_some_iff]
  obtain ⟨hr, hw⟩ | ⟨-, ho, hw⟩ | ⟨hr, j, ho, hw⟩ := decodeWord_cases w
  · simp only [hw, hr, reduceCtorEq, false_and]
  · simp only [hw, ho, reduceCtorEq, and_false]
  · simp only [hw, hr, ho, Except.ok.injEq, Option.some.injEq, true_and]

/-- The words that are no command: a reserved bit is set, or the code is reserved. -/
theorem decodeWord_rejects_iff {w : Word32} :
    (∃ e, decodeWord w = .error e) ↔ rsvField w ≠ 0 ∨ opInstr (opField w) = none := by
  obtain ⟨hr, hw⟩ | ⟨-, ho, hw⟩ | ⟨hr, j, ho, hw⟩ := decodeWord_cases w
  · exact iff_of_true ⟨_, hw⟩ (.inl hr)
  · exact iff_of_true ⟨_, hw⟩ (.inr ho)
  · simp only [hw, hr, ho, reduceCtorEq, exists_false, ne_eq, not_true, or_self]

/-- Settles O2: the decoder compares the two fields with zero and the codes, and it answers for every word. -/
theorem decoderAcceptsExactlyTheCommandWords : Obligations.DecoderAcceptsExactlyTheCommandWords := by
  refine ⟨fun w i => decodeWord_eq_ok_iff, fun w => ?_, rfl, rfl, rfl, rfl, rfl, rfl, rfl⟩
  obtain ⟨-, hw⟩ | ⟨-, -, hw⟩ | ⟨-, i, -, hw⟩ := decodeWord_cases w
  · exact .inr ⟨_, hw⟩
  · exact .inr ⟨_, hw⟩
  · exact .inl ⟨i, hw⟩

/-- Settles O4: what the decoder rejects, with the reserved codes counted out. -/
theorem illegalWordsAreTheReservedOnes : Obligations.IllegalWordsAreTheReservedOnes := fun _ =>
  decodeWord_rejects_iff.trans (or_congr_right opInstr_eq_none_iff)

/-! ## The encoder (30_encoding.md R70, R72) -/

/-- The encoding law of every command. -/
theorem encoding_law : ∀ i : Instr, Laws.Encoding.Statement i
  | .probe => Laws.Encoding.probe
  | .fold8 => Laws.Encoding.fold8
  | .fold64 => Laws.Encoding.fold64
  | .csumb => Laws.Encoding.csumb
  | .csumw => Laws.Encoding.csumw
  | .csum => Laws.Encoding.csum
  | .part => Laws.Encoding.part

/-- The decoder gives a command back from its word. -/
theorem decodeWord_encodeWord (i : Instr) : decodeWord (encodeWord i) = .ok i := by
  obtain ⟨-, hrsv, hop, -, -⟩ := encoding_law i
  exact decodeWord_eq_ok_iff.mpr ⟨hrsv, hop⟩

/-- Settles O1: the words of the table are the encodings of the commands. -/
theorem commandWordsDecodeToTheirCommands : Obligations.CommandWordsDecodeToTheirCommands :=
  ⟨decodeWord_encodeWord .probe, decodeWord_encodeWord .fold8, decodeWord_encodeWord .fold64,
    decodeWord_encodeWord .csumb, decodeWord_encodeWord .csumw, decodeWord_encodeWord .csum,
    decodeWord_encodeWord .part⟩

/-- Settles O3: the last clause of the encoding law. -/
theorem encodedCommandsDecodeBack : Obligations.EncodedCommandsDecodeBack := by
  intro i rest _
  obtain ⟨-, -, -, -, hdecode⟩ := encoding_law i
  exact hdecode rest

/-! ## The CMD write of a word that is no command (30_encoding.md R73) -/

/-- A write of CMD, of 4 or 8 bytes, is the CMD write of the low 32 bits of its value. -/
theorem State.windowAccess_cmd {s : State} {size : Nat} {value : Word64} (hsize : size = 4 ∨ size = 8) :
    s.windowAccess ⟨.write, 0x00, size, value⟩ = s.cmdWrite (lo32 value) :=
  if_pos (Access.writesCmd_iff.mpr ⟨hsize, rfl⟩)

/-- The CMD write of a rejected word at a ready unit enters the fault state with BADOP, and nothing is owed for it. -/
theorem State.cmdWrite_rejected {s : State} {u : HzcUnit} {v : Word32} {e : Reject} (hv : decodeWord v = .error e)
    (hu : s.units[s.sel]? = some u) (hready : u.ready) :
    s.cmdWrite v = .next (s.setUnit s.sel (u.raise .badop)) := by
  obtain ⟨herr, hbusy⟩ := hready
  simp only [State.cmdWrite, hv, State.illegalCommand]
  rw [State.command_some hu, HzcUnit.cmdWrite_refuse herr hbusy rfl, State.afterCmd_idle rfl]

/-- Settles O6: the write reaches CMD, and the decoder rejects the low 32 bits of its value. -/
theorem illegalCmdWordFaultsBadop : Obligations.IllegalCmdWordFaultsBadop := by
  rintro s k size value rest u _ hs hsize rfl hillegal hu hready
  obtain ⟨e, he⟩ := (illegalWordsAreTheReservedOnes _).mpr hillegal
  rw [step_scheduled hs, State.event, State.windowAccess_cmd hsize]
  exact State.cmdWrite_rejected (s := State.select { s with sched := rest } k) he hu hready

/-! ## A pass of `wait` (30_encoding.md R77) -/

/-- The read of STATUS that `wait` repeats: the host gets STATUS, and BUSY = 0 ends what it owes the unit. -/
theorem State.windowAccess_statusRead {s : State} {u : HzcUnit} (hu : s.units[s.sel]? = some u) :
    s.windowAccess statusRead = .next { s with
      rdata := (u.status s.platform).setWidth 64
      duty := if u.busy then s.duty else s.duty.filter fun d => d.unit != s.sel } := by
  rw [statusRead, State.windowAccess_read hu, State.hostRead_eq]
  cases u.busy <;> rfl

/-- Bit 0 of the value read is BUSY. -/
theorem HzcUnit.status_setWidth_busy (u : HzcUnit) (p : Platform) :
    ((u.status p).setWidth 64).getLsbD 0 = u.busy := by
  obtain ⟨hbusy, -⟩ := statusShowsItsFields p u
  rw [BitVec.getLsbD_setWidth, hbusy]
  rfl

/-- Settles O55: the read of STATUS, and the bit of it that `wait` looks at. -/
theorem waitEndsWhenBusyFalls : Obligations.WaitEndsWhenBusyFalls := by
  intro s k u rest hs hu
  rw [step_scheduled hs, State.event, State.waitStep,
    State.windowAccess_statusRead (s := State.select { s with sched := rest } k) hu]
  simp only [HzcUnit.status_setWidth_busy]
  cases u.busy <;> rfl

end Sys2Proof.Machine
end
section
/-! SUPPORT. The commands that read nothing: issue, and completion one sequencer step later. The proof of O13. -/

namespace Sys2Proof.Machine

variable {s : State} {u : HzcUnit} {i : Instr}

/-- Every ready instance admits a command that reads nothing where the capability, if it needs it, is there. -/
theorem HzcUnit.admits_of_extentOf_zero {p : Platform} (hcap : usesCrc i = true → capOf p = true)
    (hword : i ≠ .csumw) (hext : extentOf i u.len.toNat = 0) : u.admits p i :=
  ⟨hcap, fun h => absurd h hword, hext ▸ inRange_zero p u.addr⟩

/-- For a command with an empty read range the host owes nothing more. -/
theorem exec_accepted_of_extentOf_zero (hu : s.units[s.sel]? = some u) (hready : u.ready)
    (ha : u.admits s.platform i) (hext : extentOf i u.len.toNat = 0) :
    exec i s = .next (s.setUnit s.sel (startOf i u)) := by
  rw [exec_accepted hu hready ha, hext]
  rfl

/-- A command issued without a phase completes in one sequencer step. -/
theorem State.seqRun_one_startOf {k : Nat} (hu : s.units[k]? = some u) (hq : (startOf i u).q = []) :
    State.seqRun k 1 (s.setUnit k (startOf i u)) =
      .next (s.setUnit k (completeInstr s.platform i (startOf i u))) := by
  obtain ⟨acc, q, hs⟩ := startOf_eq_issue i u
  have hcode : opInstr (startOf i u).lOp = some i := by rw [hs, HzcUnit.issue_lOp, opInstr_opCode]
  have hbusy : (startOf i u).busy = true := by rw [hs, HzcUnit.issue_busy]
  rw [State.seqRun_succ (State.seqStep_complete (State.setUnit_get_self hu _) hbusy hq hcode), State.seqRun_zero,
    State.setUnit_setUnit, State.setUnit_platform]

/-- Settles O13: every ready instance admits PROBE, which has no phase and whose completion writes the capability. -/
theorem probeReportsTheCapability : Obligations.ProbeReportsTheCapability := by
  intro s u hu hready
  have hadmits : u.admits s.platform .probe := HzcUnit.admits_of_extentOf_zero nofun nofun rfl
  refine ⟨startProbe u, rfl, exec_accepted_of_extentOf_zero hu hready hadmits rfl, ?_⟩
  refine (State.seqRun_one_startOf (i := .probe) hu rfl).trans ?_
  rw [completeInstr, completeProbe, ofBool_setWidth]
  rfl

end Sys2Proof.Machine
end
section
/-! SUPPORT. ByteFold as a function of its operands: linearity, the table form and the polynomial division
(41_byte_accumulator.md R111), and byte runs (R112). The proofs of O21, O22 and O24. -/

namespace Sys2Proof.Machine

/-! ## Linearity over GF(2) -/

/-- A conditional exclusive or is linear in its condition. -/
theorem ite_xor_eq_xor_ite {w : Nat} (a b : Bool) (x : BitVec w) :
    (if (a ^^ b) then x else 0) = (if a then x else 0) ^^^ (if b then x else 0) := by
  cases a <;> cases b <;> simp

/-- A bit step as one exclusive or. -/
theorem crcBit_eq_xor (t : Word32) : crcBit t = (t >>> 1) ^^^ if t.getLsbD 0 then crcPoly else 0 := by
  unfold crcBit
  split
  · rfl
  · exact BitVec.xor_zero.symm

theorem crcBit_xor (x y : Word32) : crcBit (x ^^^ y) = crcBit x ^^^ crcBit y := by
  rw [crcBit_eq_xor, crcBit_eq_xor, crcBit_eq_xor, BitVec.ushiftRight_xor_distrib, BitVec.getLsbD_xor,
    ite_xor_eq_xor_ite]
  ac_rfl

theorem crcBits_xor (n : Nat) (x y : Word32) : crcBits n (x ^^^ y) = crcBits n x ^^^ crcBits n y := by
  induction n generalizing x y with
  | zero => rfl
  | succ n ih => rw [crcBits, crcBits, crcBits, crcBit_xor, ih]

/-- Settles O21: a bit step is linear, so eight of them are, and so is the operand they start from. -/
theorem byteFoldIsLinear : Obligations.ByteFoldIsLinear := by
  refine ⟨rfl, fun s1 s2 b1 b2 => ?_⟩
  have hoperand : (s1 ^^^ s2) ^^^ (b1 ^^^ b2).setWidth 32 = (s1 ^^^ b1.setWidth 32) ^^^ (s2 ^^^ b2.setWidth 32) := by
    rw [BitVec.setWidth_xor]
    ac_rfl
  rw [byteFold, hoperand, crcBits_xor]
  rfl

/-! ## The table form -/

/-- Bit steps over bits that are 0 are shifts. -/
theorem crcBits_of_low_zero {n : Nat} {t : Word32} (h : ∀ i, i < n → t.getLsbD i = false) : crcBits n t = t >>> n := by
  induction n generalizing t with
  | zero => exact (BitVec.ushiftRight_zero t).symm
  | succ n ih =>
    have hbit : crcBit t = t >>> 1 := by rw [crcBit, h 0 n.succ_pos]; rfl
    have hlow : ∀ i, i < n → (t >>> 1).getLsbD i = false := fun i hi => by
      rw [BitVec.getLsbD_ushiftRight]
      exact h (1 + i) (by omega)
    rw [crcBits, hbit, ih hlow, ← BitVec.shiftRight_add, Nat.add_comm]

/-- A state with its low byte cleared. -/
theorem crcBits_eight_shiftLeft (x : Word32) : crcBits 8 ((x >>> 8) <<< 8) = x >>> 8 := by
  have hlow : ∀ i, i < 8 → ((x >>> 8) <<< 8).getLsbD i = false := fun i hi => by simp [hi]
  rw [crcBits_of_low_zero hlow]
  refine BitVec.eq_of_getLsbD_eq fun i hi => ?_
  by_cases h24 : 8 + i < 32
  · simp [h24]
  · simp [h24, BitVec.getLsbD_of_ge x (8 + i) (by omega)]

/-- The operand of the bit steps, cut into s[31:8] and the byte s[7:0] ^ b. -/
theorem xor_setWidth_eq_high_xor_low (s : Word32) (b : Byte) :
    s ^^^ b.setWidth 32 = ((s >>> 8) <<< 8) ^^^ (s.setWidth 8 ^^^ b).setWidth 32 := by
  refine BitVec.eq_of_getLsbD_eq fun i hi => ?_
  by_cases h8 : i < 8
  · simp [h8, hi]
  · simp [h8, hi, Nat.add_sub_of_le (Nat.le_of_not_lt h8), BitVec.getLsbD_of_ge b i (by omega)]

/-- ByteFold by table (R111, form 2). -/
theorem byteFold_eq_table (s : Word32) (b : Byte) : byteFold s b = (s >>> 8) ^^^ byteFold 0 (s.setWidth 8 ^^^ b) := by
  rw [byteFold, xor_setWidth_eq_high_xor_low, crcBits_xor, crcBits_eight_shiftLeft]
  exact congrArg (s >>> 8 ^^^ crcBits 8 ·) BitVec.zero_xor.symm

/-! ## The polynomial division -/

/-- The divisor of R111, `0x11EDC6F41`. -/
def crcDivisor : BitVec 40 := 0x11EDC6F41

/-- The polynomial a state stands for, its bit 0 the highest coefficient (R111: `rev_32`), in 40 bits. -/
def statePoly (t : Word32) : BitVec 40 := t.reverse.setWidth 40

/-- The product of the divisor with the term of degree `k` of `q`, added to `t`. -/
def addTerm (q : Byte) (t : BitVec 40) (k : Nat) : BitVec 40 := if q.getLsbD k then t ^^^ (crcDivisor <<< k) else t

theorem timesDivisor_eq_foldl (q : Byte) : timesDivisor q = (List.range 8).foldl (addTerm q) 0 := rfl

theorem addTerm_eq_xor (q : Byte) (t : BitVec 40) (k : Nat) :
    addTerm q t k = t ^^^ if q.getLsbD k then crcDivisor <<< k else 0 := by
  unfold addTerm
  split
  · rfl
  · exact BitVec.xor_zero.symm

theorem addTerm_xor (q r : Byte) (x y : BitVec 40) (k : Nat) :
    addTerm q x k ^^^ addTerm r y k = addTerm (q ^^^ r) (x ^^^ y) k := by
  rw [addTerm_eq_xor, addTerm_eq_xor, addTerm_eq_xor, BitVec.getLsbD_xor, ite_xor_eq_xor_ite]
  ac_rfl

theorem timesDivisor_xor (q r : Byte) : timesDivisor (q ^^^ r) = timesDivisor q ^^^ timesDivisor r := by
  rw [timesDivisor_eq_foldl, timesDivisor_eq_foldl, timesDivisor_eq_foldl]
  exact List.foldl_hom₂ _ (· ^^^ ·) _ _ _ 0 0 (addTerm_xor q r)

/-- A quotient of one term shifts the divisor. -/
theorem timesDivisor_twoPow : ∀ k, k < 8 → timesDivisor (BitVec.twoPow 8 k) = crcDivisor <<< k := by decide

/-- Only the quotient 0 gives a product of degree less than 32. -/
theorem timesDivisor_high_eq_zero : ∀ q : Byte, (timesDivisor q).extractLsb' 32 8 = 0 → q = 0 := by decide

/-- The remainder of a carry-less division is unique. -/
theorem timesDivisor_remainder_unique {q q' : Byte} {r r' : Word32}
    (h : timesDivisor q ^^^ r.setWidth 40 = timesDivisor q' ^^^ r'.setWidth 40) : r = r' := by
  have hlow : ∀ x : Word32, (x.setWidth 40).extractLsb' 32 8 = 0 := fun x => by
    ext i hi
    simp
  have hhigh : (timesDivisor q).extractLsb' 32 8 = (timesDivisor q').extractLsb' 32 8 := by
    simpa [BitVec.extractLsb'_xor, hlow] using congrArg (BitVec.extractLsb' 32 8) h
  obtain rfl : q = q' := BitVec.xor_eq_zero_iff.mp <| timesDivisor_high_eq_zero _ <| by
    rw [timesDivisor_xor, BitVec.extractLsb'_xor, hhigh, BitVec.xor_self]
    rfl
  simpa using congrArg (BitVec.setWidth 32) ((BitVec.xor_right_inj _).mp h)

/-- The bits of a state's polynomial are the state's, in reverse. -/
theorem statePoly_getLsbD (t : Word32) (i : Nat) : (statePoly t).getLsbD i = (decide (i < 32) && t.getLsbD (31 - i)) := by
  rw [statePoly, BitVec.getLsbD_setWidth, BitVec.getLsbD_reverse, BitVec.getMsbD_eq_getLsbD]
  by_cases h : i < 32
  · simp [h, h.trans (by decide : 32 < 40)]
  · simp [h]

theorem statePoly_zero : statePoly 0 = 0 := congrArg (BitVec.setWidth 40) (BitVec.reverse_eq_zero_iff.mpr rfl)

theorem statePoly_xor (x y : Word32) : statePoly (x ^^^ y) = statePoly x ^^^ statePoly y := by
  refine BitVec.eq_of_getLsbD_eq fun i _ => ?_
  rw [BitVec.getLsbD_xor, statePoly_getLsbD, statePoly_getLsbD, statePoly_getLsbD, BitVec.getLsbD_xor,
    Bool.and_xor_distrib_left]

/-- A state's polynomial times x: its bit 0 becomes the coefficient of degree 32. -/
theorem statePoly_shiftLeft_one (t : Word32) :
    statePoly t <<< 1 = statePoly (t >>> 1) ^^^ if t.getLsbD 0 then BitVec.twoPow 40 32 else 0 := by
  refine BitVec.eq_of_getLsbD_eq fun i hi => ?_
  have hif : (if t.getLsbD 0 then BitVec.twoPow 40 32 else 0).getLsbD i = (t.getLsbD 0 && decide (i = 32)) := by
    cases t.getLsbD 0 <;> simp [BitVec.getLsbD_twoPow, eq_comm]
  rw [BitVec.getLsbD_shiftLeft, BitVec.getLsbD_xor, hif, statePoly_getLsbD, statePoly_getLsbD, BitVec.getLsbD_ushiftRight]
  obtain rfl | rfl | ⟨h0, h32⟩ | h32 : i = 0 ∨ i = 32 ∨ (0 < i ∧ i < 32) ∨ 32 < i := by omega
  · simp
  · simp
  · have hbit : 31 - (i - 1) = 1 + (31 - i) := by omega
    simp [hi, hbit, h32, h32.ne, h0.ne', Nat.sub_lt_of_lt h32]
  · have hge : ¬i - 1 < 32 := by omega
    simp [hge, h32.ne', h32.le]

/-- Modulo the divisor, x^32 is the polynomial of `POLY`. -/
theorem twoPow_eq_divisor_xor : BitVec.twoPow 40 32 = crcDivisor ^^^ statePoly crcPoly := by
  have hbits : ∀ i, i < 40 → (BitVec.twoPow 40 32).getLsbD i =
      (crcDivisor.getLsbD i ^^ (decide (i < 32) && crcPoly.getLsbD (31 - i))) := by decide
  refine BitVec.eq_of_getLsbD_eq fun i hi => ?_
  rw [BitVec.getLsbD_xor, statePoly_getLsbD, hbits i hi]

/-- One bit step is one step of the division: the state's polynomial times x, reduced by the divisor. -/
theorem statePoly_crcBit (t : Word32) :
    statePoly t <<< 1 = (if t.getLsbD 0 then crcDivisor else 0) ^^^ statePoly (crcBit t) := by
  rw [statePoly_shiftLeft_one, crcBit_eq_xor, statePoly_xor]
  have hpoly : (if t.getLsbD 0 then BitVec.twoPow 40 32 else 0) =
      (if t.getLsbD 0 then crcDivisor else 0) ^^^ statePoly (if t.getLsbD 0 then crcPoly else 0) := by
    by_cases h : t.getLsbD 0 = true
    · rw [if_pos h, if_pos h, if_pos h, twoPow_eq_divisor_xor]
    · rw [if_neg h, if_neg h, if_neg h, statePoly_zero]
      rfl
  rw [hpoly]
  ac_rfl

/-- `n` bit steps leave the remainder of the state's polynomial times x^n. -/
theorem statePoly_crcBits {n : Nat} (hn : n ≤ 8) (t : Word32) :
    ∃ q, statePoly t <<< n = timesDivisor q ^^^ statePoly (crcBits n t) := by
  induction n generalizing t with
  | zero =>
    refine ⟨0, ?_⟩
    rw [BitVec.shiftLeft_zero]
    exact BitVec.zero_xor.symm
  | succ n ih =>
    obtain ⟨q, hq⟩ := ih (by omega) (crcBit t)
    refine ⟨(if t.getLsbD 0 then BitVec.twoPow 8 n else 0) ^^^ q, ?_⟩
    have hterm : timesDivisor (if t.getLsbD 0 then BitVec.twoPow 8 n else 0) =
        (if t.getLsbD 0 then crcDivisor else 0) <<< n := by
      split
      · exact timesDivisor_twoPow n hn
      · exact (BitVec.zero_shiftLeft n).symm
    rw [Nat.add_comm n 1, BitVec.shiftLeft_add, statePoly_crcBit, BitVec.shiftLeft_xor_distrib, hq, timesDivisor_xor, hterm,
      BitVec.xor_assoc, Nat.add_comm 1 n, crcBits]

/-- The dividend of R111 is the polynomial of the operand of the bit steps times x^8. -/
theorem dividend_eq (s : Word32) (b : Byte) :
    (b.reverse ++ (0 : Word32)) ^^^ (s.reverse ++ (0 : Byte)) = statePoly (s ^^^ b.setWidth 32) <<< 8 := by
  have hseed : s.reverse ++ (0 : Byte) = statePoly s <<< 8 := by
    refine BitVec.eq_of_getLsbD_eq fun i hi => ?_
    rw [BitVec.getLsbD_append, BitVec.getLsbD_shiftLeft, statePoly_getLsbD, BitVec.getLsbD_reverse, BitVec.getMsbD_eq_getLsbD]
    by_cases h8 : i < 8 <;> simp [h8, hi]
  have hbyte : b.reverse ++ (0 : Word32) = statePoly (b.setWidth 32) <<< 8 := by
    refine BitVec.eq_of_getLsbD_eq fun i hi => ?_
    rw [BitVec.getLsbD_append, BitVec.getLsbD_shiftLeft, statePoly_getLsbD, BitVec.getLsbD_reverse, BitVec.getMsbD_eq_getLsbD]
    by_cases h32 : i < 32
    · have hb : 8 ≤ i → b.getLsbD (31 - (i - 8)) = false := fun _ => BitVec.getLsbD_of_ge _ _ (by omega)
      simp +contextual [h32, hb]
    · have hbit : 31 - (i - 8) = 7 - (i - 32) := by omega
      have h8 : ¬i < 8 := by omega
      have h40 : i - 8 < 32 := by omega
      have hwidth : 7 - (i - 32) < 32 := by omega
      have hlast : i - 32 < 8 := by omega
      simp [hi, h32, h8, h40, hbit, hwidth, hlast]
  rw [hbyte, hseed, statePoly_xor, BitVec.shiftLeft_xor_distrib, BitVec.xor_comm]

/-- ByteFold as the remainder of a polynomial division (R111, form 1). -/
theorem byteFold_reverse_iff_remainder (s r : Word32) (b : Byte) :
    (∃ q : Byte, (b.reverse ++ (0 : Word32)) ^^^ (s.reverse ++ (0 : Byte)) = timesDivisor q ^^^ ((0 : Byte) ++ r)) ↔
      r = (byteFold s b).reverse := by
  have hr : (0 : Byte) ++ r = r.setWidth 40 := (BitVec.setWidth_eq_append (by decide)).symm
  obtain ⟨q, hq⟩ := statePoly_crcBits le_rfl (s ^^^ b.setWidth 32)
  rw [dividend_eq, hq, hr]
  constructor
  · rintro ⟨q', h⟩
    exact (timesDivisor_remainder_unique h).symm
  · rintro rfl
    exact ⟨q, rfl⟩

/-- Settles O22: the table form, from which the dependence on the operands follows; the division, one bit step at a
time; and two entries of the table. -/
theorem byteFoldHasItsTableForm : Obligations.ByteFoldHasItsTableForm := by
  refine ⟨byteFold_eq_table, fun s s' b b' hhigh hlow => ?_, byteFold_reverse_iff_remainder, by decide, by decide⟩
  have hshift : s >>> 8 = s' >>> 8 := by
    rw [BitVec.ushiftRight_eq_extractLsb'_of_lt (by decide), BitVec.ushiftRight_eq_extractLsb'_of_lt (by decide), hhigh]
  rw [byteFold_eq_table s b, byteFold_eq_table s' b', hshift, hlow]

/-! ## Byte runs -/

/-- The address after `j + 1` bytes, as that after `j` bytes from the next one. -/
theorem add_one_add_ofNat (a : Word64) (j : Nat) : a + 1 + BitVec.ofNat 64 j = a + BitVec.ofNat 64 (j + 1) := by
  rw [BitVec.add_assoc, Nat.add_comm j 1, BitVec.ofNat_add]
  rfl

theorem byteRun_append (m : List Host.Cell) (s : Word32) (a : Word64) (j n : Nat) :
    byteRun m (byteRun m s a j) (a + BitVec.ofNat 64 j) n = byteRun m s a (j + n) := by
  induction j generalizing s a with
  | zero => rw [byteRun, Nat.zero_add, BitVec.add_zero]
  | succ j ih => rw [byteRun, ← add_one_add_ofNat, ih, Nat.succ_add, byteRun]

/-- Settles O24, by the run law, an induction on the bytes of the first run. -/
theorem byteRunsSplitAnywhere : Obligations.ByteRunsSplitAnywhere :=
  fun m s a j n => ⟨rfl, byteRun_append m s a j n⟩

end Sys2Proof.Machine
end
section
/-! SUPPORT. The byte-granularity accumulator (41_byte_accumulator.md R113, R114): a byte phase from its first read to
its drop, and the proofs of O14 and O17. -/

namespace Sys2Proof.Machine

variable {s : State} {u w : HzcUnit} {k n : Nat} {a : Word64} {c : Word32} {rest : List Phase}

/-- An instance with `acc` in ACC and the phases `q` to go. -/
def HzcUnit.folding (u : HzcUnit) (acc : Word64) (q : List Phase) : HzcUnit := { u with acc := acc, q := q }

@[simp] theorem HzcUnit.folding_acc (acc : Word64) (q : List Phase) : (u.folding acc q).acc = acc := rfl
@[simp] theorem HzcUnit.folding_q (acc : Word64) (q : List Phase) : (u.folding acc q).q = q := rfl
@[simp] theorem HzcUnit.folding_busy (acc : Word64) (q : List Phase) : (u.folding acc q).busy = u.busy := rfl
@[simp] theorem HzcUnit.folding_raced (acc : Word64) (q : List Phase) : (u.folding acc q).raced = u.raced := rfl

/-- One read of a byte phase whose bytes no host store has touched. -/
theorem State.seqStep_byte (hk : s.units[k]? = some w) (hb : u.busy = true) (hraced : u.raced = [])
    (hr : readableAt s.platform a = true) :
    (s.setUnit k (u.folding (c.setWidth 64) (⟨.byte, a, n + 1⟩ :: rest))).seqStep k =
      .next ((s.addReads [⟨k, a, 1, (Memory.read s.mem a.toNat).setWidth 64⟩]).setUnit k
        (u.folding ((byteFold c (Memory.read s.mem a.toNat)).setWidth 64) (⟨.byte, a + 1, n⟩ :: rest))) := by
  obtain ⟨b, hmem, hstep⟩ := sequencerFoldsOneByte _ k _ a n rest
    (State.setUnit_get_self hk (u.folding (c.setWidth 64) (⟨.byte, a, n + 1⟩ :: rest))) hb rfl hr
  obtain rfl : b = Memory.read s.mem a.toNat := hmem (by simp [hraced])
  rw [hstep, State.setUnit_addReads, State.setUnit_setUnit, HzcUnit.folding_acc, BitVec.setWidth_setWidth_of_le c (by decide),
    BitVec.setWidth_eq]
  rfl

/-- A byte phase of `n` bytes takes `n + 1` steps: it reads them in address order, folds their byte run into ACC and is
dropped (10_state.md R36). -/
theorem State.seqRun_bytePhase (hk : s.units[k]? = some w) (hb : u.busy = true) (hraced : u.raced = [])
    (hr : ∀ j, j < n → readableAt s.platform (a + BitVec.ofNat 64 j) = true) :
    State.seqRun k (n + 1) (s.setUnit k (u.folding (c.setWidth 64) (⟨.byte, a, n⟩ :: rest))) =
      .next ((s.addReads (byteReads s.mem k a n)).setUnit k
        (u.folding ((byteRun s.mem c a n).setWidth 64) rest)) := by
  induction n generalizing s a c with
  | zero =>
    have hdrop := State.seqStep_drop
      (State.setUnit_get_self hk (u.folding (c.setWidth 64) (⟨.byte, a, 0⟩ :: rest))) hb rfl rfl
    rw [State.seqRun_succ hdrop, State.setUnit_setUnit]
    rfl
  | succ n ih =>
    have hfirst : readableAt s.platform a = true := by simpa using hr 0 n.succ_pos
    have hrest : ∀ j, j < n → readableAt s.platform (a + 1 + BitVec.ofNat 64 j) = true := fun j hj => by
      rw [add_one_add_ofNat]
      exact hr (j + 1) (by omega)
    rw [State.seqRun_succ (State.seqStep_byte hk hb hraced hfirst), ih (s := s.addReads _) hk hrest,
      State.addReads_addReads]
    rfl

/-- The completion of a command whose phases are all dropped. -/
theorem State.seqRun_complete {i : Instr} {acc : Word64} (hk : s.units[k]? = some w) (hb : u.busy = true)
    (hi : opInstr u.lOp = some i) :
    State.seqRun k 1 (s.setUnit k (u.folding acc [])) =
      .next (s.setUnit k (completeInstr s.platform i (u.folding acc []))) := by
  rw [State.seqRun_succ (State.seqStep_complete (State.setUnit_get_self hk (u.folding acc [])) hb rfl hi), State.seqRun_zero,
    State.setUnit_setUnit, State.setUnit_platform]

/-- A 32-bit state in the 64-bit ACC is its low half, zero-extended. -/
theorem zext64_lo32_setWidth (c : Word32) : zext64 (lo32 (c.setWidth 64)) = c.setWidth 64 := by
  rw [lo32, BitVec.setWidth_setWidth_of_le c (by decide), BitVec.setWidth_eq, zext64]

/-- Settles O14: every ready instance with the capability admits FOLD8, which has no phase and whose completion folds
the latched byte. -/
theorem fold8ComputesTheByteFold : Obligations.Fold8ComputesTheByteFold := by
  intro s u hu hready hcap
  have hadmits : u.admits s.platform .fold8 := HzcUnit.admits_of_extentOf_zero (fun _ => hcap) nofun rfl
  exact ⟨startFold8 u, rfl, exec_accepted_of_extentOf_zero hu hready hadmits rfl,
    State.seqRun_one_startOf (i := .fold8) hu rfl⟩

/-- Settles O17: CSUMB is issued with one byte phase over the buffer; the phase runs, and the completion copies ACC. -/
theorem csumbFoldsItsBytes : Obligations.CsumbFoldsItsBytes := by
  intro s u hu hready hcap hrange
  have hadmits : u.admits s.platform .csumb := ⟨fun _ => hcap, nofun, hrange⟩
  have hbytes := ((inRangeMeansEveryByteIsReadable s.platform u.addr u.len.toNat).1.mp hrange).2
  refine ⟨startCsumb u, _, rfl, rfl, exec_accepted hu hready hadmits, ?_⟩
  have hd : (s.addDuty s.sel u.addr u.len.toNat).units[s.sel]? = some u := by rwa [State.addDuty_units]
  have hphase := State.seqRun_bytePhase (u := startCsumb u) (c := u.seed.setWidth 32) (rest := []) hd rfl rfl
    (by rwa [State.addDuty_platform])
  rw [State.addDuty_mem, State.addDuty_addReads] at hphase
  rw [State.setUnit_addDuty]
  refine (State.seqRun_add (n := 1) hphase).trans ?_
  rw [State.seqRun_complete (i := .csumb) (by rwa [State.addDuty_units]) rfl rfl, completeInstr, completeCsumb,
    HzcUnit.folding_acc, zext64_lo32_setWidth]
  rfl

end Sys2Proof.Machine
end
section
/-! SUPPORT. The word-granularity accumulator (42_word_accumulator.md R130 to R134): word runs as byte runs, a word
phase from its first read to its drop, and the proofs of O15, O18, O23 and O25. -/

namespace Sys2Proof.Machine

/-! ## Words and their bytes (42_word_accumulator.md R131) -/

/-- A 64-bit value is known by its eight bytes. -/
theorem word64_ext {v w : Word64} (h : ∀ j, j < 8 → v.extractLsb' (8 * j) 8 = w.extractLsb' (8 * j) 8) : v = w := by
  refine BitVec.eq_of_getLsbD_eq fun i hi => ?_
  have hbit := congrArg (·.getLsbD (i % 8)) (h (i / 8) (by omega))
  simpa [BitVec.getLsbD_extractLsb', Nat.mod_lt, Nat.div_add_mod] using hbit

/-- Byte `j` of a word of a memory (20_memory.md R52). -/
theorem memWord_byte (m : List Host.Cell) (a : Word64) {j : Nat} (hj : j < 8) :
    (memWord m a).extractLsb' (8 * j) 8 = Memory.read m (a + BitVec.ofNat 64 j).toNat := by
  rw [memWord, leValue_byte (by simp) (by simpa using hj)]
  simp

/-- A byte run folds the list of its bytes. -/
theorem byteRun_eq_bytesFold (m : List Host.Cell) (s : Word32) (a : Word64) (n : Nat) :
    byteRun m s a n = bytesFold s ((List.range n).map fun j => Memory.read m (a + BitVec.ofNat 64 j).toNat) := by
  induction n with
  | zero => rfl
  | succ n ih =>
    rw [← byteRun_append, ih, List.range_succ, List.map_append, bytesFold, bytesFold, List.foldl_append]
    rfl

/-- A word folds as its eight bytes. -/
theorem wordFold_memWord (m : List Host.Cell) (s : Word32) (a : Word64) : wordFold s (memWord m a) = byteRun m s a 8 := by
  have hbytes : bytesOfWord (memWord m a) =
      (List.range 8).map fun j => Memory.read m (a + BitVec.ofNat 64 j).toNat :=
    List.map_congr_left fun _ hj => memWord_byte m a (List.mem_range.mp hj)
  rw [wordFold, hbytes, byteRun_eq_bytesFold]

@[simp] theorem lo32_zext64 (v : Word32) : lo32 (zext64 v) = v := by
  rw [lo32, zext64, BitVec.setWidth_setWidth_of_le v (by decide), BitVec.setWidth_eq]

/-- The low half of a word run is the byte run of eight times as many bytes. -/
theorem lo32_wordRun (m : List Host.Cell) (c a : Word64) (n : Nat) :
    lo32 (wordRun m c a n) = byteRun m (lo32 c) a (8 * n) := by
  induction n generalizing c a with
  | zero => rfl
  | succ n ih =>
    calc lo32 (wordRun m (wordStep c (memWord m a)) (a + 8) n)
      _ = byteRun m (byteRun m (lo32 c) a 8) (a + 8) (8 * n) := by rw [ih, wordStep, lo32_zext64, wordFold_memWord]
      _ = byteRun m (lo32 c) a (8 + 8 * n) := byteRun_append m (lo32 c) a 8 (8 * n)
      _ = byteRun m (lo32 c) a (8 * (n + 1)) := by rw [Nat.mul_succ, Nat.add_comm]

/-- Settles O23: a word byte by byte, then an induction on the words. -/
theorem wordsFoldAsTheirBytes : Obligations.WordsFoldAsTheirBytes :=
  fun m a => ⟨fun s => wordFold_memWord m s a, fun c n => lo32_wordRun m c a n⟩

/-! ## The upper half of the container (42_word_accumulator.md R132) -/

/-- A word run of a container with a zero upper half keeps that half zero. -/
theorem hi32_wordRun {m : List Host.Cell} {c : Word64} (hc : hi32 c = 0) (a : Word64) (n : Nat) :
    hi32 (wordRun m c a n) = 0 := by
  induction n generalizing c a with
  | zero => exact hc
  | succ n ih => exact ih (hi32_zext64 _) (a + 8)

/-- The fold of a word reads the low half of the container alone. -/
theorem wordStep_congr {c d : Word64} (h : lo32 c = lo32 d) (w : Word64) : wordStep c w = wordStep d w := by
  rw [wordStep, wordStep, h]

/-- Settles O25: the first word of a run ignores the upper half and clears it, and the rest of the run keeps it zero. -/
theorem wordRunsReplaceTheUpperHalf : Obligations.WordRunsReplaceTheUpperHalf := by
  refine fun m c d a n => ⟨rfl, hi32_wordRun (hi32_zext64 _) (a + 8) n, fun h => ?_⟩
  rw [wordRun, wordRun, wordStep_congr h]

/-! ## The commands -/

section Phases

variable {s : State} {u w : HzcUnit} {k n : Nat} {a c : Word64} {rest : List Phase}

/-- One read of a word phase whose bytes no host store has touched. -/
theorem State.seqStep_word (hk : s.units[k]? = some w) (hb : u.busy = true) (hraced : u.raced = [])
    (hr : ∀ j, j < 8 → readableAt s.platform (a + BitVec.ofNat 64 j) = true) :
    (s.setUnit k (u.folding c (⟨.word, a, n + 1⟩ :: rest))).seqStep k =
      .next ((s.addReads [⟨k, a, 8, memWord s.mem a⟩]).setUnit k
        (u.folding (wordStep c (memWord s.mem a)) (⟨.word, a + 8, n⟩ :: rest))) := by
  obtain ⟨v, hmem, hstep⟩ := sequencerFoldsOneWord _ k _ a n rest
    (State.setUnit_get_self hk (u.folding c (⟨.word, a, n + 1⟩ :: rest))) hb rfl hr
  obtain rfl : v = memWord s.mem a := word64_ext fun j hj => by
    rw [memWord_byte s.mem a hj]
    exact hmem j hj (by simp [hraced])
  rw [hstep, State.setUnit_addReads, State.setUnit_setUnit]
  rfl

/-- A word phase of `n` words takes `n + 1` steps: it reads them in address order, folds their word run into ACC and is
dropped (10_state.md R36). -/
theorem State.seqRun_wordPhase (hk : s.units[k]? = some w) (hb : u.busy = true) (hraced : u.raced = [])
    (hr : ∀ j, j < 8 * n → readableAt s.platform (a + BitVec.ofNat 64 j) = true) :
    State.seqRun k (n + 1) (s.setUnit k (u.folding c (⟨.word, a, n⟩ :: rest))) =
      .next ((s.addReads (wordReads s.mem k a n)).setUnit k (u.folding (wordRun s.mem c a n) rest)) := by
  induction n generalizing s a c with
  | zero =>
    have hdrop := State.seqStep_drop (State.setUnit_get_self hk (u.folding c (⟨.word, a, 0⟩ :: rest))) hb rfl rfl
    rw [State.seqRun_succ hdrop, State.setUnit_setUnit]
    rfl
  | succ n ih =>
    have hfirst : ∀ j, j < 8 → readableAt s.platform (a + BitVec.ofNat 64 j) = true := fun j hj => hr j (by omega)
    have hrest : ∀ j, j < 8 * n → readableAt s.platform (a + 8 + BitVec.ofNat 64 j) = true := fun j hj => by
      have hlater := hr (8 + j) (by omega)
      rwa [BitVec.ofNat_add, ← BitVec.add_assoc] at hlater
    rw [State.seqRun_succ (State.seqStep_word hk hb hraced hfirst), ih (s := s.addReads _) hk hrest,
      State.addReads_addReads]
    rfl

end Phases

/-- Settles O15: every ready instance with the capability admits FOLD64, which has no phase and whose completion folds
the latched word. -/
theorem fold64ComputesTheWordFold : Obligations.Fold64ComputesTheWordFold := by
  intro s u hu hready hcap
  have hadmits : u.admits s.platform .fold64 := HzcUnit.admits_of_extentOf_zero (fun _ => hcap) nofun rfl
  exact ⟨startFold64 u, rfl, exec_accepted_of_extentOf_zero hu hready hadmits rfl,
    State.seqRun_one_startOf (i := .fold64) hu rfl⟩

/-- Settles O18: CSUMW is issued with one word phase over the buffer and the whole seed in ACC; the phase runs, and the
completion copies ACC. -/
theorem csumwFoldsItsWords : Obligations.CsumwFoldsItsWords := by
  intro s u hu hready hcap halign hrange
  have hadmits : u.admits s.platform .csumw := ⟨fun _ => hcap, fun _ => halign, hrange⟩
  have hbytes := ((inRangeMeansEveryByteIsReadable s.platform u.addr (8 * u.len.toNat)).1.mp hrange).2
  refine ⟨startCsumw u, _, rfl, rfl, exec_accepted hu hready hadmits, ?_⟩
  have hd : (s.addDuty s.sel u.addr (8 * u.len.toNat)).units[s.sel]? = some u := by rwa [State.addDuty_units]
  have hphase := State.seqRun_wordPhase (u := startCsumw u) (c := u.seed) (rest := []) hd rfl rfl
    (by rwa [State.addDuty_platform])
  rw [State.addDuty_mem, State.addDuty_addReads] at hphase
  rw [State.setUnit_addDuty]
  refine (State.seqRun_add (n := 1) hphase).trans ?_
  rw [State.seqRun_complete (i := .csumw) (by rwa [State.addDuty_units]) rfl rfl]
  rfl

end Sys2Proof.Machine
end
section
/-! SUPPORT. The partitioner and the driver (43_driver.md R150 to R161): what the partition is, the run of the three
phases of CSUM, and its RESULT as a function of the seed and the bytes. The proofs of O16, O19 and O26 to O30. -/

namespace Sys2Proof.Machine

/-! ## The partition (43_driver.md R150 to R155) -/

section Partition

variable {a : Word64} {n : Nat}

theorem partition_of_lt (h : n < 8) : partition a n = ⟨0, 0, n⟩ := if_pos h

theorem partition_of_le (h : 8 ≤ n) :
    partition a n = ⟨leadCount a, (n - leadCount a) / 8, (n - leadCount a) % 8⟩ := if_neg (Nat.not_lt.mpr h)

/-- From 8 bytes on the leading count is the distance to the next multiple of 8. -/
theorem partition_lead_of_le (h : 8 ≤ n) : (partition a n).lead = (2 ^ 64 - a.toNat) % 8 := by
  rw [partition_of_le h]
  exact leadCount_eq a

/-- In a buffer of at least 8 bytes the leading bytes end at a multiple of 8. -/
theorem partition_lead_end (h : 8 ≤ n) : (a.toNat + (partition a n).lead) % 8 = 0 := by
  have ha := a.isLt
  rw [partition_lead_of_le h]
  omega

/-- The words are the aligned words that lie inside the buffer: no further one fits before or after them. -/
theorem partition_words_maximal (x : Nat) :
    (x % 8 = 0 ∧ a.toNat ≤ x ∧ x + 8 ≤ a.toNat + n) ↔
      ∃ j, j < (partition a n).words ∧ x = a.toNat + (partition a n).lead + 8 * j := by
  obtain hn | hn := Nat.lt_or_ge n 8
  · rw [partition_of_lt hn]
    exact iff_of_false (by omega) fun ⟨j, hj, _⟩ => Nat.not_lt_zero j hj
  · have hsum := partition_sum a n
    have hlead := partition_lead_le a n
    have htrail := partition_trail_le a n
    have hend := partition_lead_end (a := a) hn
    constructor
    · rintro ⟨hx, hlo, hhi⟩
      exact ⟨(x - (a.toNat + (partition a n).lead)) / 8, by omega, by omega⟩
    · rintro ⟨j, hj, rfl⟩
      omega

/-- Settles O26: the three parts make up the buffer, the outer ones are short, and the words between them start at a
multiple of 8 and are maximal. -/
theorem partitionMeetsItsInvariants : Obligations.PartitionMeetsItsInvariants := by
  refine ⟨?_, fun a ha => ?_⟩
  · rintro a n _ hn rfl
    have hwords := partition_words_le a n
    exact ⟨partition_sum a n, partition_lead_le a n, partition_trail_le a n, partition_lead_end,
      partition_words_maximal, hwords, by omega⟩
  · have hlead : leadCount a = 7 := by
      rw [leadCount_eq]
      omega
    rw [partition_of_le le_rfl, hlead]

/-- Settles O27: the short-buffer policy, and the leading count modulo 8. -/
theorem leadReachesTheNextBoundary : Obligations.LeadReachesTheNextBoundary := by
  refine fun a n => ⟨partition_of_lt, fun hn => ⟨?_, partition_lead_of_le hn⟩⟩
  have ha := a.isLt
  rw [partition_lead_of_le hn]
  omega

/-- Settles O16: every ready instance admits PART, which has no phase and whose completion writes the partition. -/
theorem partWritesThePartition : Obligations.PartWritesThePartition := by
  intro s u hu hready
  have hadmits : u.admits s.platform .part := HzcUnit.admits_of_extentOf_zero nofun nofun rfl
  exact ⟨startPart u, _, rfl, rfl, exec_accepted_of_extentOf_zero hu hready hadmits rfl,
    State.seqRun_one_startOf (i := .part) hu rfl⟩

end Partition

/-! ## The run of the driver (43_driver.md R156 to R159) -/

/-- A word run of a 32-bit state in the container is the byte run of eight times as many bytes. -/
theorem wordRun_zext64 (m : List Host.Cell) (c : Word32) (a : Word64) (n : Nat) :
    wordRun m (zext64 c) a n = zext64 (byteRun m c a (8 * n)) := by
  rw [← join64_hi32_lo32 (wordRun m (zext64 c) a n), hi32_wordRun (hi32_zext64 c), lo32_wordRun, lo32_zext64,
    join64_zero]

/-- The byte runs of the three parts of a buffer, in a row, are the byte run of the buffer. -/
theorem byteRun_partition (m : List Host.Cell) (c : Word32) (a : Word64) {n : Nat} {t : Split}
    (h : t.lead + 8 * t.words + t.trail = n) :
    byteRun m (byteRun m (byteRun m c a t.lead) (a + BitVec.ofNat 64 t.lead) (8 * t.words))
      (a + BitVec.ofNat 64 t.lead + BitVec.ofNat 64 (8 * t.words)) t.trail = byteRun m c a n := by
  rw [BitVec.add_assoc, ← BitVec.ofNat_add, byteRun_append, byteRun_append, h]

/-- The reads of CSUM: the leading bytes, the words and the trailing bytes (43_driver.md R157). -/
def csumReads (m : List Host.Cell) (k : Nat) (a : Word64) (t : Split) : List ReadEvent :=
  byteReads m k a t.lead ++ wordReads m k (a + BitVec.ofNat 64 t.lead) t.words ++
    byteReads m k (a + BitVec.ofNat 64 t.lead + BitVec.ofNat 64 (8 * t.words)) t.trail

/-- The three phases of CSUM over a buffer of `n` bytes fold the byte run of the buffer into ACC, one step for each unit
and one for each drop. -/
theorem State.seqRun_csumPhases {s : State} {u w : HzcUnit} {k n : Nat} {a : Word64} {c : Word32} {t : Split}
    (hk : s.units[k]? = some w) (hb : u.busy = true) (hraced : u.raced = [])
    (hr : ∀ j, j < n → readableAt s.platform (a + BitVec.ofNat 64 j) = true)
    (ht : t.lead + 8 * t.words + t.trail = n) :
    State.seqRun k (t.lead + t.words + t.trail + 3) (s.setUnit k (u.folding (c.setWidth 64) (csumPhases a t))) =
      .next ((s.addReads (csumReads s.mem k a t)).setUnit k
        (u.folding ((byteRun s.mem c a n).setWidth 64) [])) := by
  have hwords : ∀ j, j < 8 * t.words →
      readableAt s.platform (a + BitVec.ofNat 64 t.lead + BitVec.ofNat 64 j) = true := fun j hj => by
    rw [BitVec.add_assoc, ← BitVec.ofNat_add]
    exact hr _ (by omega)
  have htrail : ∀ j, j < t.trail → readableAt s.platform
      (a + BitVec.ofNat 64 t.lead + BitVec.ofNat 64 (8 * t.words) + BitVec.ofNat 64 j) = true := fun j hj => by
    rw [BitVec.add_assoc, BitVec.add_assoc, ← BitVec.ofNat_add, ← BitVec.ofNat_add]
    exact hr _ (by omega)
  have hsteps : t.lead + t.words + t.trail + 3 = (t.lead + 1) + ((t.words + 1) + (t.trail + 1)) := by omega
  rw [hsteps, csumPhases, State.seqRun_add (State.seqRun_bytePhase hk hb hraced fun j hj => hr j (by omega)),
    State.seqRun_add (State.seqRun_wordPhase (s := s.addReads _) hk hb hraced hwords),
    State.addReads_mem, ← zext64, wordRun_zext64, zext64,
    State.seqRun_bytePhase (s := (s.addReads _).addReads _) hk hb hraced htrail, State.addReads_addReads,
    State.addReads_addReads, State.addReads_mem, State.addReads_mem, byteRun_partition s.mem c a ht, csumReads,
    List.append_assoc]

/-- Settles O19: CSUM is issued with the phases of the partition; they run, and the completion copies ACC and writes
the partition. -/
theorem csumFoldsTheWholeBuffer : Obligations.CsumFoldsTheWholeBuffer := by
  intro s u hu hready hcap hrange
  have hadmits : u.admits s.platform .csum := ⟨fun _ => hcap, nofun, hrange⟩
  have hbytes := ((inRangeMeansEveryByteIsReadable s.platform u.addr u.len.toNat).1.mp hrange).2
  refine ⟨startCsum u, _, _, rfl, rfl, rfl, exec_accepted hu hready hadmits, ?_⟩
  have hd : (s.addDuty s.sel u.addr u.len.toNat).units[s.sel]? = some u := by rwa [State.addDuty_units]
  have hphases := State.seqRun_csumPhases (u := startCsum u) (c := u.seed.setWidth 32) hd rfl rfl
    (by rwa [State.addDuty_platform]) (partition_sum u.addr u.len.toNat)
  rw [State.addDuty_mem, State.addDuty_addReads] at hphases
  rw [State.setUnit_addDuty]
  refine (State.seqRun_add (n := 1) hphases).trans ?_
  rw [State.seqRun_complete (i := .csum) (by rwa [State.addDuty_units]) rfl rfl, completeInstr, completeCsum,
    HzcUnit.folding_acc, zext64_lo32_setWidth]
  rfl

/-! ## RESULT (43_driver.md R158 to R161) -/

/-- From `s` the command `i` runs to its end: in `t`, where `v` is the instance it ran at, it has completed with
RESULT `r`, and the memory is as it was. -/
structure Completes (i : Instr) (s t : State) (v : HzcUnit) (r : Word64) : Prop where
  run : runWhole i s = .next t
  unit : t.units[s.sel]? = some v
  ready : v.ready
  done : v.done = true
  result : v.result = r
  platform : t.platform = s.platform
  mem : t.mem = s.mem
  sel : t.sel = s.sel

/-- A command whose issue and whose sequencer run are known. -/
theorem Completes.of_seqRun {i : Instr} {s e : State} {u v : HzcUnit} {rs : List ReadEvent} {a : Word64} {n : Nat}
    (hu : s.units[s.sel]? = some u) (hexec : exec i s = .next e)
    (hrun : State.seqRun s.sel (commandSteps i u.addr u.len.toNat) e =
      .next (((s.addReads rs).addDuty s.sel a n).setUnit s.sel v))
    (hready : v.ready) (hdone : v.done = true) :
    Completes i s (((s.addReads rs).addDuty s.sel a n).setUnit s.sel v) v v.result where
  run := by simp only [runWhole, hu, runCommand, hexec, hrun]
  unit := State.setUnit_get_self (by rwa [State.addDuty_units]) v
  ready := hready
  done := hdone
  result := rfl
  platform := State.addDuty_platform ..
  mem := State.addDuty_mem ..
  sel := State.addDuty_sel ..

/-- The checksum of the buffer the operand registers name, as RESULT holds it. -/
def HzcUnit.checksum (m : List Host.Cell) (u : HzcUnit) : Word64 :=
  (byteRun m (u.seed.setWidth 32) u.addr u.len.toNat).setWidth 64

section Results

variable {s : State} {u : HzcUnit}

/-- An admitted CSUM completes with the checksum of its buffer. -/
theorem csum_completes (hu : s.units[s.sel]? = some u) (hready : u.ready) (ha : u.admits s.platform .csum) :
    ∃ t v, Completes .csum s t v (u.checksum s.mem) := by
  obtain ⟨hcap, -, hrange⟩ := ha
  obtain ⟨_, _, _, rfl, rfl, rfl, hexec, hrun⟩ := csumFoldsTheWholeBuffer s u hu hready (hcap rfl) hrange
  exact ⟨_, _, .of_seqRun hu hexec hrun ⟨hready.1, rfl⟩ rfl⟩

/-- An admitted CSUMB completes with the same checksum. -/
theorem csumb_completes (hu : s.units[s.sel]? = some u) (hready : u.ready) (ha : u.admits s.platform .csumb) :
    ∃ t v, Completes .csumb s t v (u.checksum s.mem) := by
  obtain ⟨hcap, -, hrange⟩ := ha
  obtain ⟨_, _, rfl, rfl, hexec, hrun⟩ := csumbFoldsItsBytes s u hu hready (hcap rfl) hrange
  exact ⟨_, _, .of_seqRun hu hexec hrun ⟨hready.1, rfl⟩ rfl⟩

/-- A CSUM of operands the host has just written to a ready instance completes with the checksum they name. -/
theorem csum_completes_of_operands {w : HzcUnit} (hu : s.units[s.sel]? = some w) (hready : u.ready)
    (hcap : capOf s.platform = true) (hrange : inRange s.platform u.addr u.len.toNat = true) :
    ∃ t v, Completes .csum (s.setUnit s.sel u) t v (u.checksum s.mem) :=
  csum_completes (State.setUnit_get_self hu u) hready ⟨fun _ => hcap, nofun, hrange⟩

end Results

/-- Settles O28: both commands complete with the checksum of the buffer, and CSUMB asks no more than CSUM does. -/
theorem csumAgreesWithCsumb : Obligations.CsumAgreesWithCsumb := by
  intro s u hu hready ha
  have ⟨hcap, _, hrange⟩ := ha
  obtain ⟨t, v, h⟩ := csum_completes hu hready ha
  obtain ⟨t', v', h'⟩ := csumb_completes hu hready ⟨hcap, nofun, hrange⟩
  exact ⟨t, t', v, v', h.run, h.unit, h'.run, h'.unit, h.done, h'.done, h.result.trans h'.result.symm⟩

/-- A byte run depends on its bytes alone, not on where they lie. -/
theorem byteRun_congr {m m' : List Host.Cell} {a a' : Word64} {n : Nat} (c : Word32)
    (ha : a.toNat + n ≤ 2 ^ 64) (ha' : a'.toNat + n ≤ 2 ^ 64)
    (h : ∀ j, j < n → Memory.read m (a.toNat + j) = Memory.read m' (a'.toNat + j)) :
    byteRun m c a n = byteRun m' c a' n := by
  rw [byteRun_eq_bytesFold, byteRun_eq_bytesFold]
  refine congrArg (bytesFold c) (List.map_congr_left fun j hj => ?_)
  have hj : j < n := List.mem_range.mp hj
  rw [toNat_add_ofNat (by omega), toNat_add_ofNat (by omega), h j hj]

/-- Settles O30: the two checksums are byte runs of the same bytes from the same low seed. -/
theorem csumDependsOnSeedAndBytesOnly : Obligations.CsumDependsOnSeedAndBytesOnly := by
  intro s s' u u' hu hready ha hu' hready' ha' hseed hlen hbytes
  obtain ⟨t, v, h⟩ := csum_completes hu hready ha
  obtain ⟨t', v', h'⟩ := csum_completes hu' hready' ha'
  obtain ⟨-, -, hrange⟩ := ha
  obtain ⟨-, -, hrange'⟩ := ha'
  have hsame : u.checksum s.mem = u'.checksum s'.mem := by
    rw [HzcUnit.checksum, HzcUnit.checksum, ← hseed, ← hlen]
    exact congrArg _ (byteRun_congr _ (inRange_le hrange) (hlen ▸ inRange_le hrange') hbytes)
  exact ⟨t, t', v, v', h.run, h.unit, h'.run, h'.unit, h.done, h'.done, by rw [h.result, h'.result, hsame]⟩

/-! ## Chained checksums (43_driver.md R160) -/

section Chain

variable {p : Platform} {a : Word64} {m k : Nat}

/-- The first bytes of a range in range are in range. -/
theorem inRange_firstBytes (h : inRange p a (m + k) = true) : inRange p a m = true := by
  obtain ⟨hle, hbytes⟩ := (inRangeMeansEveryByteIsReadable p a (m + k)).1.mp h
  exact (inRangeMeansEveryByteIsReadable p a m).1.mpr ⟨by omega, fun j hj => hbytes j (by omega)⟩

/-- The rest of a range in range is in range; at the top of the buffer space it is empty and its address wraps. -/
theorem inRange_remainingBytes (h : inRange p a (m + k) = true) : inRange p (a + BitVec.ofNat 64 m) k = true := by
  obtain ⟨hle, hbytes⟩ := (inRangeMeansEveryByteIsReadable p a (m + k)).1.mp h
  obtain rfl | hk := k.eq_zero_or_pos
  · exact inRange_zero p _
  · refine (inRangeMeansEveryByteIsReadable p _ k).1.mpr ⟨?_, fun j hj => ?_⟩
    · rw [toNat_add_ofNat (by omega)]
      omega
    · rw [BitVec.add_assoc, ← BitVec.ofNat_add]
      exact hbytes (m + j) (by omega)

end Chain

/-- Settles O29: each of the three CSUMs completes with its checksum, and the byte run of the rest, from the checksum
of the first part, is that of the whole. -/
theorem csumComposesOverEverySplit : Obligations.CsumComposesOverEverySplit := by
  intro s u m k hu hready hcap hlt hrange
  have hlen : ∀ {n : Nat}, n ≤ m + k → (BitVec.ofNat 32 n).toNat = n := fun hn =>
    Nat.mod_eq_of_lt (hn.trans_lt hlt)
  have hm := hlen (Nat.le_add_right m k)
  have hk := hlen (Nat.le_add_left k m)
  have hmk := hlen (le_refl (m + k))
  obtain ⟨t1, v1, h1⟩ := csum_completes_of_operands (u := { u with len := BitVec.ofNat 32 m }) hu hready hcap
    (by rw [hm]; exact inRange_firstBytes hrange)
  obtain ⟨t2, v2, h2⟩ := csum_completes_of_operands (s := t1)
    (u := { v1 with seed := v1.result, addr := u.addr + BitVec.ofNat 64 m, len := BitVec.ofNat 32 k })
    (by rw [h1.sel]; exact h1.unit) h1.ready (by rw [h1.platform]; exact hcap)
    (by rw [hk, h1.platform]; exact inRange_remainingBytes hrange)
  obtain ⟨t, v, h⟩ := csum_completes_of_operands (u := { u with len := BitVec.ofNat 32 (m + k) }) hu hready hcap
    (by rw [hmk]; exact hrange)
  have hchain : v2.result = v.result := by
    rw [h2.result, h.result]
    simp only [HzcUnit.checksum, h1.result, h1.mem, State.setUnit_mem, hm, hk, hmk]
    rw [BitVec.setWidth_setWidth_of_le _ (by decide), BitVec.setWidth_eq, byteRun_append]
  have hsel : t1.sel = s.sel := h1.sel
  refine ⟨t1, v1, t2, v2, t, v, h1.run, h1.unit, ?_, ?_, h.run, h.unit, h1.done, h2.done, h.done, hchain⟩
  · rw [← hsel]
    exact h2.run
  · rw [← hsel]
    exact h2.unit

end Sys2Proof.Machine
end
section
/-! SUPPORT. What a CMD write refuses, ignores or aborts (60_exceptions.md R181 to R186): the proofs of O7 to O11. -/

namespace Sys2Proof.Machine

variable {s : State} {u : HzcUnit} {i : Instr} {p : Platform}

/-! ## The CMD write in the fault state and while BUSY (60_exceptions.md R184, R186) -/

/-- A CMD write that leaves its unit as it is changes nothing. -/
theorem State.afterCmd_same {k : Nat} (hu : s.units[k]? = some u) : s.afterCmd k u u = s := by
  rw [State.afterCmd, if_neg fun hb => Bool.noConfusion (hb.1.symm.trans hb.2), State.setUnit_same hu]

/-- A CMD write to a unit in the fault state is ignored. -/
theorem State.command_ignored (hu : s.units[s.sel]? = some u) (he : u.err ≠ .none)
    (check : Platform → HzcUnit → Option ErrCode) (start : HzcUnit → HzcUnit) : s.command check start = .next s := by
  rw [State.command_some hu, HzcUnit.cmdWrite_ignored _ _ _ he, State.afterCmd_same hu]

/-- A CMD write to a busy unit aborts its command with BUSY. -/
theorem State.command_aborts (hu : s.units[s.sel]? = some u) (he : u.err = .none) (hb : u.busy = true)
    (check : Platform → HzcUnit → Option ErrCode) (start : HzcUnit → HzcUnit) :
    s.command check start = .next (s.setUnit s.sel (u.raise .busy)) := by
  rw [State.command_some hu, HzcUnit.cmdWrite, if_neg (not_not.mpr he), if_pos hb, State.afterCmd_busy hb]

/-- The CMD write of any word, legal or not, is a command with some check and some start. -/
theorem State.cmdWrite_eq_command (s : State) (v : Word32) :
    ∃ check start, s.cmdWrite v = s.command check start := by
  obtain ⟨i, -, hv⟩ | ⟨_, -, hv⟩ := State.cmdWrite_cases s v
  · exact ⟨_, _, hv.trans (exec_eq_command i s)⟩
  · exact ⟨_, _, hv⟩

/-- Settles O7: every CMD write goes through the check of ERR. -/
theorem cmdWritesAreIgnoredWhileErrIsSet : Obligations.CmdWritesAreIgnoredWhileErrIsSet := by
  intro s u v hu he
  obtain ⟨_, _, hv⟩ := s.cmdWrite_eq_command v
  exact ⟨hv.trans (State.command_ignored hu he _ _),
    fun i => (exec_eq_command i s).trans (State.command_ignored hu he _ _)⟩

/-- Settles O8: every CMD write goes through the check of BUSY, and the unit it leaves is idle. -/
theorem cmdWriteWhileBusyAborts : Obligations.CmdWriteWhileBusyAborts := by
  intro s u hu he hb
  refine ⟨_, rfl, fun v => ?_, fun i => (exec_eq_command i s).trans (State.command_aborts hu he hb _ _),
    State.seqStep_idle (State.setUnit_get_self hu _) rfl⟩
  obtain ⟨_, _, hv⟩ := s.cmdWrite_eq_command v
  exact hv.trans (State.command_aborts hu he hb _ _)

/-! ## The checks of a ready unit (60_exceptions.md R181, R182) -/

/-- A command refused by its check enters the fault state with the code of the check, and nothing is owed for it. -/
theorem exec_refused {e : ErrCode} (hu : s.units[s.sel]? = some u) (hready : u.ready)
    (hc : checkOf i s.platform u = some e) : exec i s = .next (s.setUnit s.sel (u.raise e)) := by
  obtain ⟨herr, hbusy⟩ := hready
  rw [exec_some hu, HzcUnit.cmdWrite_refuse herr hbusy hc, State.afterCmd_idle rfl]

/-- Without the capability every CRC command is refused with UNSUPPORTED. -/
theorem checkOf_unsupported (hcrc : usesCrc i = true) (hcap : capOf p = false) :
    checkOf i p u = some .unsupported := by
  cases i
  case probe | part => cases hcrc
  case fold8 | fold64 => exact if_neg (Bool.eq_false_iff.mp hcap)
  case csumb | csumw | csum => exact if_pos hcap

/-- With the capability a misaligned CSUMW is refused with ALIGN. -/
theorem checkOf_align (hcap : capOf p = true) (ha : u.addr.toNat % 8 ≠ 0) : checkOf .csumw p u = some .align := by
  simp [checkOf, wordRangeCheck, hcap, ha]

/-- With the capability, and aligned where it must be, a command whose range is not in range is refused with RANGE. -/
theorem checkOf_range (hcap : capOf p = true) (ha : i = .csumw → u.addr.toNat % 8 = 0)
    (hr : inRange p u.addr (extentOf i u.len.toNat) = false) : checkOf i p u = some .range := by
  have hcap' : ¬capOf p = false := by simp [hcap]
  have hr' := Bool.eq_false_iff.mp hr
  cases i
  case probe | fold8 | fold64 | part => exact absurd (inRange_zero p u.addr) hr'
  case csumb | csum => exact (if_neg hcap').trans (if_neg hr')
  case csumw => exact (if_neg hcap').trans ((if_neg (not_not.mpr (ha rfl))).trans (if_neg hr'))

/-- A range that passes 2^64 or has a byte that is not readable is not in range (20_memory.md R51). -/
theorem inRange_eq_false {a : Word64} {n : Nat}
    (h : 2 ^ 64 < a.toNat + n ∨ ∃ j, j < n ∧ readableAt p (a + BitVec.ofNat 64 j) = false) : inRange p a n = false := by
  refine Bool.eq_false_iff.mpr fun hr => ?_
  obtain ⟨hle, hbytes⟩ := (inRangeMeansEveryByteIsReadable p a n).1.mp hr
  obtain hlt | ⟨j, hj, hn⟩ := h
  · exact Nat.not_lt.mpr hle hlt
  · exact Bool.noConfusion (hn.symm.trans (hbytes j hj))

/-- Settles O9: the gate of the capability refuses the CRC commands before it looks at an operand, and PROBE and PART
have no check. -/
theorem crcCommandsNeedTheCapability : Obligations.CrcCommandsNeedTheCapability := by
  intro s u hu hready hcap
  refine ⟨fun i hi => exec_refused hu hready (checkOf_unsupported ?_ hcap), fun i hi => ⟨startOf i u, ?_⟩⟩
  · rcases hi with rfl | rfl | rfl | rfl | rfl <;> rfl
  · obtain ⟨acc, q, hs⟩ := startOf_eq_issue i u
    refine ⟨?_, by rw [hs]; exact hready.1, by rw [hs]; rfl⟩
    rcases hi with rfl | rfl <;>
      exact exec_accepted_of_extentOf_zero hu hready (HzcUnit.admits_of_extentOf_zero nofun nofun rfl) rfl

/-- Settles O10: the check of the alignment comes before that of the range. -/
theorem misalignedCsumwFaultsAlign : Obligations.MisalignedCsumwFaultsAlign :=
  fun _ _ hu hready hcap ha => exec_refused hu hready (checkOf_align hcap ha)

/-- Settles O11: such a range is not in range, and the checks before that of the range pass. -/
theorem rangesNotReadableFaultRange : Obligations.RangesNotReadableFaultRange :=
  fun _ _ _ hu hready hcap _ ha hrange => exec_refused hu hready (checkOf_range hcap ha (inRange_eq_false hrange))

end Sys2Proof.Machine
end
section
/-! SUPPORT. What a step never does (60_exceptions.md R187, R188): forget a HostRace, fault in a phase, or stop on an
event that names a unit and a window that exist. The proofs of O45, O58 and O59. -/

namespace Sys2Proof.Machine

variable {s t : State} {k : Nat} {u : HzcUnit} {p : Platform}

/-! ## HostRace (60_exceptions.md R188) -/

/-- A window access neither records nor clears a HostRace. -/
theorem State.windowAccess_hostRace {a : Access} (h : s.windowAccess a = .next t) : t.hostRace = s.hostRace := by
  obtain ⟨u, -, ⟨i, -, -, rfl⟩ | ⟨_, -, -, rfl⟩ | ⟨-, -, rfl⟩ | ⟨-, -, rfl⟩⟩ := State.windowAccess_next h
  · exact State.afterCmd_hostRace ..
  · exact State.afterCmd_hostRace ..
  · rfl
  · exact State.hostRead_hostRace ..

/-- Settles O45: a host store may record a HostRace, and no other operation touches the record. -/
theorem hostRaceIsKept : Obligations.HostRaceIsKept := by
  intro s t h hrace
  obtain ⟨r, rfl, ⟨k, a, hw⟩ | ⟨a, b, -, rfl⟩ | ⟨k, -, hreset⟩ | ⟨k, hs⟩ | ⟨k, -, hw⟩ | rfl⟩ := step_next h
  · exact (State.windowAccess_hostRace (s := State.select { s with sched := s.sched.tail } k) hw).trans hrace
  · exact (State.hostStore_hostRace ..).mpr (.inl hrace)
  · obtain ⟨_, -, rfl⟩ := State.onUnit_next hreset
    exact hrace
  · obtain ⟨_, _, _, -, -, rfl⟩ := State.seqStep_frame hs
    exact hrace
  · obtain ⟨_, -, _, rfl⟩ := State.waitStep_next hw
    exact hrace
  · exact hrace

/-! ## Sequencer steps (60_exceptions.md R187) -/

/-- The next unit of a phase lies in the range admitted at issue, so its bytes are readable (20_memory.md R51). -/
theorem HzcUnit.Inv.phase_readable (h : u.Inv p) (hb : u.busy = true) {f : Phase} (hf : f ∈ u.q)
    (h0 : f.remaining ≠ 0) : ∀ x ∈ readAddresses f.cursor f.kind.width, readableAt p x = true := by
  intro x hx
  obtain ⟨j, hj, rfl⟩ := mem_readAddresses.mp hx
  obtain ⟨hlo, hhi, -⟩ := (h.inside f hf).resolve_left h0
  obtain ⟨d, hd⟩ := Nat.exists_eq_add_of_le hlo
  have hcursor : f.cursor = u.lAddr + BitVec.ofNat 64 d := by
    refine BitVec.eq_of_toNat_eq ?_
    rw [toNat_add_ofNat (hd ▸ f.cursor.isLt), hd]
  have hwidth : f.kind.width ≤ f.kind.width * f.remaining := Nat.le_mul_of_pos_right _ (Nat.pos_of_ne_zero h0)
  obtain ⟨rest, hrest⟩ := Nat.exists_eq_add_of_le (show d + f.kind.width ≤ u.extent by omega)
  have hrange := h.admitted hb
  rw [hrest, Nat.add_assoc] at hrange
  have hunit := inRange_firstBytes (inRange_remainingBytes hrange)
  rw [hcursor]
  exact ((inRangeMeansEveryByteIsReadable p _ _).1.mp hunit).2 j hj

/-- Where the invariant holds, the sequencer of every unit that exists answers. -/
theorem State.Inv.seqStep_answers (h : s.Inv) (hu : s.units[k]? = some u) : ∃ t, s.seqStep k = .next t := by
  obtain ⟨hinv, -, -⟩ := h.unit hu
  cases hb : u.busy with
  | false => exact ⟨_, State.seqStep_idle hu hb⟩
  | true =>
    cases hq : u.q with
    | nil =>
      obtain ⟨i, hi⟩ := hinv.latched hb
      exact ⟨_, State.seqStep_complete hu hb hq hi⟩
    | cons f rest =>
      by_cases h0 : f.remaining = 0
      · exact ⟨_, State.seqStep_drop hu hb hq h0⟩
      · exact ⟨_, State.seqStep_fold hu hb hq h0 (hinv.phase_readable hb (hq ▸ List.mem_cons_self) h0)⟩

/-- Settles O58: under the invariant the step answers, and the frame of a sequencer step has ERR in it. -/
theorem sequencerStepsNeverFault : Obligations.SequencerStepsNeverFault := by
  intro s k u h hu
  obtain ⟨t, ht⟩ := h.seqStep_answers hu
  refine ⟨t, ht, fun j v w hv hw => ?_⟩
  obtain ⟨-, -, -, -, -, -, -, -, hkeep⟩ := sequencerKeepsOperandsAndLatches s t k ht
  obtain ⟨-, -, -, -, herr, -⟩ := hkeep j v w hv hw
  exact herr

/-! ## Events that stop (60_exceptions.md R193, R194) -/

/-- The outcome `r` is a next state, or the stop for a unit `k` that does not exist (log entry 9). -/
def State.stopsOnlyAbsent (s : State) (k : Nat) (r : Result) : Prop :=
  (∃ t, r = .next t) ∨ r = .fault .noSuchUnit ∧ s.units.length ≤ k

/-- An operation on unit `k` that answers where the unit exists, and faults where it does not. -/
theorem State.stopsOnlyAbsent_of {r : Result} (hsome : ∀ u, s.units[k]? = some u → ∃ t, r = .next t)
    (hnone : s.units[k]? = none → r = .fault .noSuchUnit) : s.stopsOnlyAbsent k r := by
  cases hk : s.units[k]? with
  | none => exact .inr ⟨hnone hk, List.getElem?_eq_none_iff.mp hk⟩
  | some u => exact .inl (hsome u hk)

/-- A change of one unit stops only where the unit does not exist. -/
theorem State.onUnit_stops (s : State) (k : Nat) (f : HzcUnit → HzcUnit) : s.stopsOnlyAbsent k (s.onUnit k f) :=
  State.stopsOnlyAbsent_of (fun _ hu => ⟨_, State.onUnit_some hu f⟩) fun hk => by rw [State.onUnit, hk]

/-- A CMD write stops only where the selected unit does not exist. -/
theorem State.command_stops (s : State) (check : Platform → HzcUnit → Option ErrCode) (start : HzcUnit → HzcUnit) :
    s.stopsOnlyAbsent s.sel (s.command check start) :=
  State.stopsOnlyAbsent_of (fun _ hu => ⟨_, State.command_some hu check start⟩) fun hk => by rw [State.command, hk]

/-- A window access, read or write, stops only where the selected unit does not exist. -/
theorem State.windowAccess_stops (s : State) (a : Access) : s.stopsOnlyAbsent s.sel (s.windowAccess a) := by
  unfold State.windowAccess
  split
  · obtain ⟨check, start, hv⟩ := s.cmdWrite_eq_command (lo32 a.value)
    rw [hv]
    exact s.command_stops check start
  · cases a.dir with
    | write => exact s.onUnit_stops s.sel _
    | read => exact State.stopsOnlyAbsent_of (fun _ hu => ⟨_, by rw [hu]⟩) fun hk => by rw [hk]

/-- A pass of `wait` stops only where its read of STATUS does. -/
theorem State.waitStep_stops (s : State) (k : Nat) : s.stopsOnlyAbsent k (s.waitStep k) := by
  unfold State.waitStep
  obtain ⟨t, ht⟩ | ⟨hfault, hk⟩ := (s.select k).windowAccess_stops statusRead
  · exact .inl ⟨_, by rw [ht]⟩
  · exact .inr ⟨by rw [hfault], hk⟩

/-- Under the invariant a sequencer step stops only where its unit does not exist. -/
theorem State.Inv.seqStep_stops (h : s.Inv) (k : Nat) : s.stopsOnlyAbsent k (s.seqStep k) :=
  State.stopsOnlyAbsent_of (fun _ hu => h.seqStep_answers hu) fun hk => by rw [State.seqStep, hk]

/-- An event of unit `k` stops only where that unit does not exist. -/
theorem State.Inv.event_stops (h : s.Inv) {e : Event} (he : eventUnit s.platform e = some k) :
    s.stopsOnlyAbsent k (s.event e) := by
  cases e with
  | store a b => cases he
  | bus a dir size value =>
    obtain ⟨⟨j, off⟩, hres, rfl⟩ := Option.map_eq_some_iff.mp he
    rw [State.event, hres]
    exact (s.select j).windowAccess_stops _
  | access j a =>
    obtain rfl := Option.some.inj he
    exact (s.select j).windowAccess_stops a
  | resetInput j =>
    obtain rfl := Option.some.inj he
    exact s.onUnit_stops j _
  | tick j =>
    obtain rfl := Option.some.inj he
    exact h.seqStep_stops j
  | wait j =>
    obtain rfl := Option.some.inj he
    exact s.waitStep_stops j
  | chainSeed j =>
    obtain rfl := Option.some.inj he
    exact (s.select j).windowAccess_stops _

/-- A bus address that no unit answers lies outside every window (10_state.md R22). -/
theorem resolveBus_eq_none {a : Word64} (h : resolveBus p a = none) : ∀ base ∈ p.regBase, 256 ≤ (a - base).toNat := by
  intro base hbase
  by_contra hlt
  cases hidx : p.regBase.findIdx? fun b => decide ((a - b).toNat < 256) with
  | none =>
    have hout := List.findIdx?_eq_none_iff.mp hidx base hbase
    exact hlt (Nat.not_lt.mp (of_decide_eq_false hout))
  | some k =>
    obtain ⟨hk, -⟩ := List.findIdx?_eq_some_iff_getElem.mp hidx
    simp only [resolveBus, hidx, List.getElem?_eq_getElem hk] at h
    cases h

/-- With nothing scheduled a state that meets the invariant steps. -/
theorem State.Inv.quietStep_answers (h : s.Inv) : ∃ t, s.quietStep = .next t := by
  unfold State.quietStep
  split
  · next k hk =>
    obtain ⟨hlt, -⟩ := List.findIdx?_eq_some_iff_getElem.mp hk
    exact h.seqStep_answers (List.getElem?_eq_getElem hlt)
  · exact ⟨s, rfl⟩

/-- Settles O59: an event that names a unit stops only where that unit does not exist; of the others a host store
answers, and a bus access is outside every window. -/
theorem stepsStopOnlyOnForeignEvents : Obligations.StepsStopOnlyOnForeignEvents := by
  intro s h
  cases hs : s.sched with
  | nil =>
    rw [step_quiet hs]
    exact .inl h.quietStep_answers
  | cons e rest =>
    rw [step_scheduled hs]
    have hr : State.Inv { s with sched := rest } := h.ofDuty h.owed s.rdata rest s.sel
    cases he : eventUnit s.platform e with
    | some k => exact (hr.event_stops he).imp_right fun ⟨hfault, hk⟩ => .inl ⟨hfault, e, k, rfl, he, hk⟩
    | none =>
      cases e with
      | store a b => exact .inl ⟨_, rfl⟩
      | bus a dir size value =>
        have hres : resolveBus s.platform a = none := Option.map_eq_none_iff.mp he
        exact .inr (.inr ⟨by rw [State.event, hres], a, dir, size, value, rfl, resolveBus_eq_none hres⟩)
      | access | resetInput | tick | wait | chainSeed => cases he

end Sys2Proof.Machine
end
section
/-! SUPPORT. What reset gives (70_reset_and_hazards.md R201 to R203), and a command in progress from any of its steps to
its completion (R213). The proofs of O20, O36, O37, O39 and O56. -/

namespace Sys2Proof.Machine

/-! ## Reset (70_reset_and_hazards.md R201 to R203) -/

/-- Settles O37: the reset input is an event of its own, and it puts the reset instance back. -/
theorem resetInputRestoresEveryRegister : Obligations.ResetInputRestoresEveryRegister := by
  intro s k u rest hs hu
  rw [step_scheduled hs]
  exact State.onUnit_some (s := { s with sched := rest }) hu HzcUnit.softReset

/-- At power-on every instance is the reset one. -/
theorem State.mem_reset_units {u : HzcUnit} (h : u ∈ State.reset.units) : u = HzcUnit.reset :=
  List.eq_of_mem_replicate h

/-- There is an instance at power-on (00_scope.md R5). -/
theorem State.reset_units_ne_nil : State.reset.units ≠ [] := List.cons_ne_nil _ _

/-- STATUS of an instance after reset is FEAT alone. -/
theorem HzcUnit.status_reset (p : Platform) :
    HzcUnit.reset.status p = if capOf p then 0x00000100 else 0x00000000 := by
  rw [HzcUnit.status]
  cases capOf p <;> rfl

/-- Settles O39: every instance is the reset one, whose STATUS is FEAT alone. -/
theorem powerOnStateIsTheResetState : Obligations.PowerOnStateIsTheResetState := by
  refine ⟨State.reset_units_ne_nil, fun u hu => ?_⟩
  obtain rfl := State.mem_reset_units hu
  exact ⟨rfl, rfl, rfl, rfl, rfl, rfl, rfl, rfl, rfl, rfl, rfl, rfl, rfl, rfl, rfl, rfl, rfl, rfl,
    HzcUnit.status_reset _⟩

/-- Settles O56: every instance is the reset one, which is idle and has no store that raced, and nothing is recorded. -/
theorem resetMeetsTheInvariant : Obligations.ResetMeetsTheInvariant where
  someUnit := State.reset_units_ne_nil
  unitInv _ hu := State.mem_reset_units hu ▸ HzcUnit.reset_inv _
  memWf := rfl
  reads := nofun
  owed _ _ hu hb := by
    obtain rfl := State.mem_reset_units (List.mem_of_getElem? hu)
    cases hb
  raceKept _ hu hraced := absurd (State.mem_reset_units hu ▸ rfl) hraced

/-! ## The steps a command has left (70_reset_and_hazards.md R213) -/

section StepsLeft

variable {s t : State} {k n : Nat} {u : HzcUnit}

/-- The sequencer steps until the command in progress has completed: one for each unit left, one for each phase to drop,
and one for the completion. -/
def HzcUnit.stepsLeft (u : HzcUnit) : Nat :=
  if u.busy then (u.q.map Phase.remaining).sum + u.q.length + 1 else 0

/-- The last command was accepted, and is in progress or has completed without fault. -/
structure HzcUnit.OnCourse (u : HzcUnit) : Prop where
  err : u.err = .none
  done : u.done = !u.busy

theorem HzcUnit.stepsLeft_of_busy (hb : u.busy = true) :
    u.stepsLeft = (u.q.map Phase.remaining).sum + u.q.length + 1 := if_pos hb

theorem HzcUnit.stepsLeft_folding (hb : u.busy = true) (acc : Word64) (q : List Phase) :
    (u.folding acc q).stepsLeft = (q.map Phase.remaining).sum + q.length + 1 := if_pos hb

/-- A command is in progress exactly while it has a step left. -/
theorem HzcUnit.stepsLeft_ne_zero_iff : u.stepsLeft ≠ 0 ↔ u.busy = true := by
  cases hb : u.busy <;> simp [HzcUnit.stepsLeft, hb]

/-- Each step that the sequencer of a busy instance takes is one fewer to its completion without fault. -/
theorem State.seqStep_stepsLeft (hu : s.units[k]? = some u) (hc : u.OnCourse) (hb : u.busy = true)
    (h : s.seqStep k = .next t) : ∃ v, t.units[k]? = some v ∧ v.OnCourse ∧ v.stepsLeft + 1 = u.stepsLeft := by
  obtain ⟨herr, hdone⟩ := hc
  obtain ⟨w, hw, hcase⟩ := State.seqStep_next h
  obtain rfl : w = u := Option.some.inj (hw.symm.trans hu)
  rw [HzcUnit.stepsLeft_of_busy hb]
  obtain ⟨hidle, -⟩ | ⟨-, hq, i, -, rfl⟩ | ⟨-, f, rest, hq, h0, rfl⟩ | ⟨-, f, rest, hq, h0, -, rfl⟩ := hcase
  · exact Bool.noConfusion (hb.symm.trans hidle)
  · obtain ⟨_, _, _, _, he, -⟩ := completeInstr_cases s.platform i w
    rw [he]
    exact ⟨_, State.setUnit_get_self hu _, ⟨herr, rfl⟩, by simp [HzcUnit.stepsLeft, hq]⟩
  · refine ⟨w.folding w.acc rest, State.setUnit_get_self hu _, ⟨herr, hdone⟩, ?_⟩
    rw [HzcUnit.stepsLeft_folding hb, hq, List.map_cons, List.sum_cons, List.length_cons, h0]
    omega
  · refine ⟨w.folding _ (f.advance :: rest), State.setUnit_get_self (s := s.record _) hu _, ⟨herr, hdone⟩, ?_⟩
    have hunit : f.advance.remaining + 1 = f.remaining := Nat.succ_pred_eq_of_ne_zero h0
    rw [HzcUnit.stepsLeft_folding hb, hq]
    simp only [List.map_cons, List.sum_cons, List.length_cons]
    omega

/-- A run of `n` of the steps left is `n` steps fewer to the completion. -/
theorem State.seqRun_stepsLeft (hu : s.units[k]? = some u) (hc : u.OnCourse) (hn : n ≤ u.stepsLeft)
    (h : State.seqRun k n s = .next t) : ∃ v, t.units[k]? = some v ∧ v.OnCourse ∧ v.stepsLeft + n = u.stepsLeft := by
  induction n generalizing s u with
  | zero =>
    cases h
    exact ⟨u, hu, hc, rfl⟩
  | succ n ih =>
    rw [State.seqRun] at h
    split at h
    · next r hr =>
      obtain ⟨w, hw, hwc, hleft⟩ := State.seqStep_stepsLeft hu hc (HzcUnit.stepsLeft_ne_zero_iff.mp (by omega)) hr
      obtain ⟨v, hv, hvc, hrun⟩ := ih hw hwc (by omega) h
      exact ⟨v, hv, hvc, by omega⟩
    · cases h
    · cases h

/-- A run of fewer steps than are left leaves the command in progress. -/
theorem State.seqRun_busy (hu : s.units[k]? = some u) (hc : u.OnCourse) (hn : n < u.stepsLeft)
    (h : State.seqRun k n s = .next t) : ∃ v, t.units[k]? = some v ∧ v.busy = true ∧ v.done = false := by
  obtain ⟨v, hv, hvc, hleft⟩ := State.seqRun_stepsLeft hu hc hn.le h
  have hb : v.busy = true := HzcUnit.stepsLeft_ne_zero_iff.mp (by omega)
  exact ⟨v, hv, hb, by simp [hvc.done, hb]⟩

/-- A run of all the steps left completes the command without fault. -/
theorem State.seqRun_completes (hu : s.units[k]? = some u) (hc : u.OnCourse)
    (h : State.seqRun k u.stepsLeft s = .next t) :
    ∃ v, t.units[k]? = some v ∧ v.busy = false ∧ v.done = true ∧ v.err = .none := by
  obtain ⟨v, hv, hvc, hleft⟩ := State.seqRun_stepsLeft hu hc le_rfl h
  have hb : v.busy = false := by
    rw [← Bool.not_eq_true, ← HzcUnit.stepsLeft_ne_zero_iff, not_not]
    omega
  exact ⟨v, hv, hb, by simp [hvc.done, hb], hvc.err⟩

/-- A sequencer that answers all of a run answers its first steps. -/
theorem State.seqRun_answers_of_le {m : Nat} (hm : m ≤ n) (h : State.seqRun k n s = .next t) :
    ∃ r, State.seqRun k m s = .next r := by
  induction m generalizing s n with
  | zero => exact ⟨s, rfl⟩
  | succ m ih =>
    obtain ⟨n, rfl⟩ := Nat.exists_eq_add_of_le' (Nat.one_le_of_lt hm)
    rw [State.seqRun] at h
    split at h
    · next r hr =>
      rw [State.seqRun_succ hr]
      exact ih (Nat.le_of_succ_le_succ hm) h
    · cases h
    · cases h

/-! ## The commands -/

/-- Under the invariant the sequencer of an instance that exists answers a run of any length. -/
theorem State.Inv.seqRun_answers (h : s.Inv) (hk : k < s.units.length) (n : Nat) :
    ∃ t, State.seqRun k n s = .next t := by
  induction n generalizing s with
  | zero => exact ⟨s, rfl⟩
  | succ n ih =>
    obtain ⟨r, hr⟩ := h.seqStep_answers (List.getElem?_eq_getElem hk)
    have hlen : r.units.length = s.units.length := by
      obtain ⟨_, _, _, -, -, rfl⟩ := State.seqStep_frame hr
      exact List.length_set
    rw [State.seqRun_succ hr]
    exact ih (h.seqStep hr) (hlen ▸ hk)

/-- A command just issued has its number of steps left. -/
theorem startOf_stepsLeft (i : Instr) (u : HzcUnit) :
    (startOf i u).stepsLeft = commandSteps i u.addr u.len.toNat := by
  cases i
  case probe | fold8 | fold64 | part | csumb | csumw => rfl
  case csum =>
    refine (HzcUnit.stepsLeft_of_busy rfl).trans ?_
    simp only [startOf, startCsum, csumPhases, HzcUnit.issue_q, commandSteps, List.map_cons, List.map_nil,
      List.sum_cons, List.sum_nil, List.length_cons, List.length_nil]
    omega

/-- A command issued by a ready instance is on its course. -/
theorem HzcUnit.ready.onCourse_startOf (h : u.ready) (i : Instr) : (startOf i u).OnCourse := by
  obtain ⟨acc, q, hs⟩ := startOf_eq_issue i u
  rw [hs]
  exact ⟨h.1, rfl⟩

/-- The sequencer answers the whole run of a command that is admitted. -/
theorem State.seqRun_startOf_answers {i : Instr} (hu : s.units[s.sel]? = some u) (hready : u.ready)
    (ha : u.admits s.platform i) : ∃ t, State.seqRun s.sel (commandSteps i u.addr u.len.toNat)
      ((s.setUnit s.sel (startOf i u)).addDuty s.sel u.addr (extentOf i u.len.toNat)) = .next t := by
  obtain ⟨hcap, halign, hrange⟩ := ha
  cases i
  case probe | fold8 | fold64 | part => exact ⟨_, State.seqRun_one_startOf hu rfl⟩
  case csumb =>
    obtain ⟨_, _, -, rfl, -, hrun⟩ := csumbFoldsItsBytes s u hu hready (hcap rfl) hrange
    exact ⟨_, hrun⟩
  case csumw =>
    obtain ⟨_, _, -, rfl, -, hrun⟩ := csumwFoldsItsWords s u hu hready (hcap rfl) (halign rfl) hrange
    exact ⟨_, hrun⟩
  case csum =>
    obtain ⟨_, _, _, rfl, -, rfl, -, hrun⟩ := csumFoldsTheWholeBuffer s u hu hready (hcap rfl) hrange
    exact ⟨_, hrun⟩

end StepsLeft

/-- Settles O36: under the invariant the run answers, and it has all the steps left. -/
theorem commandsInProgressComplete : Obligations.CommandsInProgressComplete := by
  intro s k u h hu hb
  obtain ⟨hinv, -, -⟩ := h.unit hu
  have hc : u.OnCourse := ⟨hinv.err_of_busy hb, by simp [hinv.busyNotDone hb, hb]⟩
  obtain ⟨t, ht⟩ := h.seqRun_answers (List.getElem?_eq_some_iff.mp hu).1 u.stepsLeft
  obtain ⟨v, hv⟩ := State.seqRun_completes hu hc ht
  rw [HzcUnit.stepsLeft_of_busy hb] at ht
  exact ⟨t, v, ht, hv⟩

/-- Settles O20: the command is issued with its number of steps left, and the sequencer answers all of them. -/
theorem commandsTakeExactlyTheirSteps : Obligations.CommandsTakeExactlyTheirSteps := by
  intro s u i hu hready ha
  obtain ⟨e, he⟩ := State.seqRun_startOf_answers hu hready ha
  have hc := hready.onCourse_startOf i
  have hissued : ((s.setUnit s.sel (startOf i u)).addDuty s.sel u.addr (extentOf i u.len.toNat)).units[s.sel]? =
      some (startOf i u) := by
    rw [State.addDuty_units]
    exact State.setUnit_get_self hu _
  refine ⟨_, exec_accepted hu hready ha, fun n hn => ?_, ?_⟩
  · obtain ⟨t, ht⟩ := State.seqRun_answers_of_le hn.le he
    rw [← startOf_stepsLeft] at hn
    obtain ⟨v, hbusy⟩ := State.seqRun_busy hissued hc hn ht
    exact ⟨t, v, ht, hbusy⟩
  · rw [← startOf_stepsLeft] at he ⊢
    obtain ⟨v, hdone⟩ := State.seqRun_completes hissued hc he
    exact ⟨e, v, he, hdone⟩

end Sys2Proof.Machine
end
